-- ==== Sys2Proof/Word.lean ====
section
/-! DEFINITION. The widths of the block's ports (`00_scope.md` R9: "command words are 32 bits, symbol code
points 21 bits, data bytes 8 bits"). -/

namespace Sys2Proof

/-- A word of the command port or of the response port (R60, R67). -/
abbrev Word := BitVec 32

/-- A data byte: the operand of PUTB, and what a decode conversion emits (R48, R62). -/
abbrev Byte := BitVec 8

/-- A symbol, represented as a Unicode code point in 21 bits (`20_memory.md` R41). -/
abbrev CodePoint := BitVec 21

end Sys2Proof
end

