-- ==== Sys2Proof/Config.lean ====
section
/-! DEFINITION. What is fixed before the block runs: the choice of codec and direction a CFG command can make, and
the block's one implementation parameter, ALPHABET128 (`00_scope.md` R6, R8). -/

namespace Sys2Proof

/-- The direction of a conversion, bit DIR of CFG (`30_encoding.md` R61: "0 = encode, 1 = decode"). -/
inductive Dir where
  | encode
  | decode
deriving DecidableEq, Repr

/-- The four codecs, the values of RSEL (`00_scope.md` R6; `10_state.md` R22: "All four values are legal"). -/
inductive Rsel where
  | radix64
  | radix32
  | radix16
  | radix128
deriving DecidableEq, Repr

/-- ALPHABET128 (`41_alphabet_rom.md` R103): "a sequence of 128 code points A[0..127]". Constraint (c), below 2^21,
is in the type; (a) and (b) are `Alphabet128.Allowed`. -/
abbrev Alphabet128 := Vector CodePoint 128

/-- Constraint (a) of R103: "the 128 entries are pairwise distinct (bijectivity)". -/
def Alphabet128.Distinct (A : Alphabet128) : Prop := A.toList.Nodup

/-- A Unicode scalar value (`41_alphabet_rom.md` R105): not "above 0x10FFFF, or a surrogate". -/
def isScalarValue (c : CodePoint) : Bool :=
  decide (c.toNat < 0xD800) || (decide (0xE000 ≤ c.toNat) && decide (c.toNat ≤ 0x10FFFF))

/-- A control code: U+0000 to U+001F, U+007F to U+009F. Those below U+0080 are what is left of ASCII beside the 95 printable
characters of `90_conflicts.md` C4; the rest is PRESUMED (log entry 5). -/
def isControl (c : CodePoint) : Bool :=
  decide (c.toNat < 0x20) || (decide (0x7F ≤ c.toNat) && decide (c.toNat < 0xA0))

/-- A code point Unicode sets aside as no character: U+FDD0 to U+FDEF, and the last two of each plane (PRESUMED, log entry 5). -/
def isNoncharacter (c : CodePoint) : Bool :=
  (decide (0xFDD0 ≤ c.toNat) && decide (c.toNat ≤ 0xFDEF)) || decide (0xFFFE ≤ c.toNat % 0x10000)

/-- A printable character (R103): the model's reading, since the spec lists none (log entry 5). -/
def printable (c : CodePoint) : Bool := isScalarValue c && !isControl c && !isNoncharacter c

/-- Constraint (b) of R103: each entry "is a printable character". -/
def Alphabet128.Printable (A : Alphabet128) : Prop := ∀ c ∈ A.toList, printable c = true

/-- A value the parameter may take (`00_scope.md` R8: "an argument that satisfies the constraints of rule R103"). -/
def Alphabet128.Allowed (A : Alphabet128) : Prop := A.Distinct ∧ A.Printable

/-- The spec's default table, `ALPHABET128_DEFAULT[i] = 0xC0 + i` (R103, decision D7). -/
def alphabet128Default : Alphabet128 := Vector.ofFn fun i => BitVec.ofNat 21 (0xC0 + i.val)

end Sys2Proof
end

