-- ==== Sys2Proof/Machine/Operands.lean ====
section
/-! DEFINITION. The constants of the selected codec, by which every command reads its operand (`00_scope.md` R6,
`42_padding_fsm.md` R120). -/

namespace Sys2Proof.Machine

/-- W, bits per symbol (R6). -/
def width : Rsel → Nat
  | .radix64  => 6
  | .radix32  => 5
  | .radix16  => 4
  | .radix128 => 7

/-- N, the alphabet size (R6). -/
def alphabetSize : Rsel → Nat
  | .radix64  => 64
  | .radix32  => 32
  | .radix16  => 16
  | .radix128 => 128

/-- L, bytes per block (R6). -/
def blockBytes : Rsel → Nat
  | .radix64  => 3
  | .radix32  => 5
  | .radix16  => 1
  | .radix128 => 7

/-- S, symbols per block (R6). -/
def blockSymbols : Rsel → Nat
  | .radix64  => 4
  | .radix32  => 8
  | .radix16  => 2
  | .radix128 => 8

/-- PADDED: the codec has the pad character (R6). -/
def padded : Rsel → Bool
  | .radix64  => true
  | .radix32  => true
  | .radix16  => false
  | .radix128 => false

/-- VALIDM: the values of POS at which a first pad is accepted (R120). -/
def validM : Rsel → List Nat
  | .radix64  => [2, 3]
  | .radix32  => [2, 4, 5, 7]
  | .radix16  => []
  | .radix128 => []

/-- VALIDEND: the values of POS accepted at FIN when no pad was seen (R120). -/
def validEnd : Rsel → List Nat
  | .radix64  => [0]
  | .radix32  => [0]
  | .radix16  => [0]
  | .radix128 => [0, 2, 3, 4, 5, 6, 7]

/-- The pad character `=`, code point 0x3D (R105). -/
def padChar : CodePoint := 0x3D

end Sys2Proof.Machine
end

