-- ==== Sys2Proof/Machine/Rom.lean ====
section
/-! DEFINITION. The alphabet ROM: its four tables and its two lookup ports (`41_alphabet_rom.md`). Both ports are
combinational: they read no register and write none (R104, R105). -/

namespace Sys2Proof.Machine

/-- `n` consecutive code points from `first` on. -/
def codeRange (first n : Nat) : List CodePoint := (List.range n).map fun i => BitVec.ofNat 21 (first + i)

/-- Table 0, `A-Za-z0-9+/` (R100). -/
def table64 : List CodePoint := codeRange 0x41 26 ++ codeRange 0x61 26 ++ codeRange 0x30 10 ++ [0x2B, 0x2F]

/-- Table 1, `A-Z2-7` (R101). -/
def table32 : List CodePoint := codeRange 0x41 26 ++ codeRange 0x32 6

/-- Table 2, `0-9A-F` (R102). -/
def table16 : List CodePoint := codeRange 0x30 10 ++ codeRange 0x41 6

/-- The table RSEL selects (R40); table 3 is the parameter (R103). -/
def romTable (A : Alphabet128) : Rsel → List CodePoint
  | .radix64  => table64
  | .radix32  => table32
  | .radix16  => table16
  | .radix128 => A.toList

/-- RomI2S (R104): the code point at an index of a table; none at an index the table has no entry for. -/
def romI2S (A : Alphabet128) (t : Rsel) (i : Nat) : Option CodePoint := (romTable A t)[i]?

/-- The position of a code point's first occurrence in a table. -/
def indexIn (c : CodePoint) : List CodePoint → Option Nat
  | []      => none
  | d :: ds => if d = c then some 0 else (indexIn c ds).map (· + 1)

/-- The three kinds of result of RomS2I (R105). -/
inductive SymClass where
  /-- An entry of the table, with its index. -/
  | sym (i : Nat)
  /-- The pad character of a padded codec. -/
  | pad
  /-- Neither. -/
  | unknown
deriving DecidableEq, Repr

/-- RomS2I (R105). -/
def romS2I (A : Alphabet128) (t : Rsel) (c : CodePoint) : SymClass :=
  match indexIn c (romTable A t) with
  | some i => .sym i
  | none   => if padded t = true ∧ c = padChar then .pad else .unknown

end Sys2Proof.Machine
end

