-- ==== Sys2Proof/Machine/State.lean ====
section
/-! DEFINITION. The state of the block: the seven registers of `10_state.md` R20, the one table of the alphabet ROM that
is an implementation parameter, and the two ports as data. -/

namespace Sys2Proof.Machine

/-- PHASE (`10_state.md` R21): 0 IDLE, 1 ENC, 2 DEC. The value 3 "is never written by any rule; a model may make it
unrepresentable" (log entry 7). -/
inductive Phase where
  | idle
  | enc
  | dec
deriving DecidableEq, Repr

/-- ERR (R27): "the first error of the open decode conversion", 0 none to 4. The values 5 to 7 are never written
(log entry 7). -/
inductive Err where
  | noError
  | invalidSymbol
  | malformedLength
  | malformedPadding
  | nonZeroTrailingBits
deriving DecidableEq, Repr

/-- STATUS of a response (`30_encoding.md` R68). The codes 6 and 7 are never produced. -/
inductive Status where
  | ok
  | invalidSymbol
  | malformedLength
  | malformedPadding
  | nonZeroTrailingBits
  | illegalCommand
deriving DecidableEq, Repr

/-- One output value (R67): "in ENC a symbol code point", "in DEC a byte". -/
inductive Datum where
  | symbol (c : CodePoint)
  | byte (b : Byte)
deriving DecidableEq, Repr

/-- One response (R67): the command's status, PHASE after the command, and the emitted values in emission order. Its words
are computed in `Machine/Ops.lean`. -/
structure Response where
  status : Status
  phase  : Phase
  data   : List Datum
deriving DecidableEq, Repr

/-- What the host can do to the block between two commands (`70_reset_and_hazards.md` R217): present a command word, or
raise the reset event (R210). -/
inductive Input where
  | command (w : Word)
  | reset
deriving DecidableEq, Repr

/-- Why the model stops. -/
inductive Fault where
  /-- Raised by PUTB and FIN when an index they look up is not below the table's size (`41_alphabet_rom.md` R104: a model
  "faults on i >= N_t; it never returns a value there"). Safe: no reachable state raises it (log entry 6). -/
  | romIndexOutOfRange
deriving DecidableEq, Repr

/-- Why the model gives an instruction no meaning. -/
inductive Refusal where
  /-- Raised by an arm of `exec` that has no meaning yet. Safe: the model stops. No arm raises it. -/
  | notModelled (mnemonic : String)
deriving DecidableEq, Repr

/-- The state of one block. -/
@[ext]
structure State where
  /-- PHASE, 2 bits (R21). -/
  phase : Phase
  /-- RSEL, 2 bits (R22). -/
  rsel : Rsel
  /-- ACC, 7 bits: the pending bits, oldest at position CNT - 1 (R23). -/
  acc : BitVec 7
  /-- CNT, 3 bits: the number of pending bits (R24). -/
  cnt : BitVec 3
  /-- POS, 3 bits: the position of the next symbol in the current block (R25). -/
  pos : BitVec 3
  /-- PADF, 1 bit: a pad has been accepted (R26). -/
  padf : Bool
  /-- ERR, 3 bits: the sticky conversion error (R27). -/
  err : Err
  /-- Table 3 of the alphabet ROM, ALPHABET128 (R30, R103). Constant: no command writes it. It stands here so that a
  statement over all states is a statement over all tables (log entry 4). -/
  rom128 : Alphabet128
  /-- The model's own: what the host presents from here on, next first (log entry 1). -/
  inputs : List Input
  /-- The model's own: the responses returned so far, oldest first (log entry 1). -/
  responses : List Response
deriving DecidableEq, Repr

/-- The block right after reset (R31) when it was built with the radix-128 table `A`, which R8 and R103 ask to be `Alphabet128.Allowed`;
nothing presented, nothing answered (log entry 2). -/
def State.resetWith (A : Alphabet128) : State where
  phase     := .idle
  rsel      := .radix64
  acc       := 0
  cnt       := 0
  pos       := 0
  padf      := false
  err       := .noError
  rom128    := A
  inputs    := []
  responses := []

/-- The block right after reset, with the spec's default radix-128 table (R31, R103). -/
def State.reset : State := State.resetWith alphabet128Default

end Sys2Proof.Machine
end

