-- ==== Sys2Proof/Machine/Ops.lean ====
section
/-! DEFINITION. The named operations over the state: register writes, the response port, recording an error and clearing
one, the reset event, and the four reservoir operations (`00_scope.md` R11, `40_bit_reservoir.md`). -/

namespace Sys2Proof.Machine

/-- `PHASE <- p` (R11). -/
def State.setPhase (p : Phase) (s : State) : State := { s with phase := p }

/-- `RSEL <- r` (R11). -/
def State.setRsel (r : Rsel) (s : State) : State := { s with rsel := r }

/-- `ACC <- t; CNT <- c`, naturals that fit the registers in every reachable state (R11, R162; log entry 8). -/
def State.setReservoir (t c : Nat) (s : State) : State :=
  { s with acc := BitVec.ofNat 7 t, cnt := BitVec.ofNat 3 c }

/-- `POS <- p` (R11). -/
def State.setPos (p : Nat) (s : State) : State := { s with pos := BitVec.ofNat 3 p }

/-- `PADF <- b` (R11). -/
def State.setPadf (b : Bool) (s : State) : State := { s with padf := b }

/-- `POS <- (POS + 1) mod S` (R152 to R154). -/
def State.advancePos (s : State) : State := s.setPos ((s.pos.toNat + 1) % blockSymbols s.rsel)

/-- `raise E`, the recording half (`60_exceptions.md` R187): ERR <- E, and nothing else is written (R189, R190). This is the
block's whole entry into an error: there is no trap (R190). -/
def State.raise (e : Err) (s : State) : State := { s with err := e }

/-- `ACC <- 0; CNT <- 0; POS <- 0; PADF <- 0; ERR <- 0`, which CFG, FIN and reset share (R151, R154, R210). It is also the only
way out of an error (R191). -/
def State.clearConversion (s : State) : State :=
  { s with acc := 0, cnt := 0, pos := 0, padf := false, err := .noError }

/-- `respond(st)` (R11, R67): one response, with PHASE as it now stands and the values the command emitted. -/
def State.respond (st : Status) (data : List Datum) (s : State) : State :=
  { s with responses := s.responses ++ [{ status := st, phase := s.phase, data := data }] }

/-- ILLEGAL (`43_commands.md` R155): respond IllegalCommand, write no register. -/
def State.rejectCommand (s : State) : State := s.respond .illegalCommand []

/-- The reset event (`70_reset_and_hazards.md` R210): the registers of R31, no response, the ROM unchanged. -/
def State.resetEvent (s : State) : State := ((s.setPhase .idle).setRsel .radix64).clearConversion

/-! ### The response port (`30_encoding.md` R67, R68) -/

/-- PHASE as the header carries it (R21, R67). -/
def phaseCode : Phase → BitVec 2
  | .idle => 0
  | .enc  => 1
  | .dec  => 2

/-- The STATUS codes (R68). -/
def statusCode : Status → BitVec 3
  | .ok                  => 0
  | .invalidSymbol       => 1
  | .malformedLength     => 2
  | .malformedPadding    => 3
  | .nonZeroTrailingBits => 4
  | .illegalCommand      => 5

/-- A data word: the value in the low bits, zeros above (R67). -/
def datumWord : Datum → Word
  | .symbol c => 0#11 ++ c
  | .byte b   => 0#24 ++ b

/-- The header word (R67): reserved 31:10, PHASE 9:8, reserved 7, NOUT 6:4, reserved 3, STATUS 2:0. NOUT is the number of
data words, which is at most 7 (R69). -/
def responseHeader (r : Response) : Word :=
  0#22 ++ phaseCode r.phase ++ 0#1 ++ BitVec.ofNat 3 r.data.length ++ 0#1 ++ statusCode r.status

/-- The words of a response in order: the header, then its data words (R67). -/
def responseWords (r : Response) : List Word := responseHeader r :: r.data.map datumWord

/-! ### Emission -/

/-- `for idx in out: emit(RomI2S(RSEL, idx)); POS <- (POS + 1) mod S` (R152, R154). None when an index has no entry (R104). -/
def emitIndices : List Nat → State → Option (List Datum × State)
  | [], s => some ([], s)
  | i :: is, s =>
    match romI2S s.rom128 s.rsel i with
    | none => none
    | some c =>
      match emitIndices is s.advancePos with
      | none => none
      | some (ds, s') => some (.symbol c :: ds, s')

/-! ### The bit reservoir -/

/-- The loop of PackByte (R81) on the transient value `t` of `c` bits: while c >= W, take the oldest W bits. The first argument
bounds the rounds. -/
def packLoop (w : Nat) : Nat → Nat → Nat → List Nat × Nat × Nat
  | 0, t, c => ([], t, c)
  | rounds + 1, t, c =>
    if w ≤ c then
      let rest := packLoop w rounds (t % 2 ^ (c - w)) (c - w)
      ((t >>> (c - w)) :: rest.1, rest.2)
    else ([], t, c)

/-- PackByte (R81): append the byte's 8 bits, take every complete group. Three rounds are enough in every state, since
CNT + 8 <= 15 < 4·W (`Sys2Proof.Machine.packLoop_leaves_less_than_width`); two in every reachable one (R82). -/
def packByte (b : Byte) (s : State) : List Nat × State :=
  let r := packLoop (width s.rsel) 3 ((s.acc.toNat <<< 8) + b.toNat) (s.cnt.toNat + 8)
  (r.1, s.setReservoir r.2.1 r.2.2)

/-- PackTail (R83): right-pad the pending bits with zeros to one last index; nothing when there is none. -/
def packTail (s : State) : List Nat × State :=
  if s.cnt.toNat = 0 then ([], s)
  else ([s.acc.toNat <<< (width s.rsel - s.cnt.toNat)], s.setReservoir 0 0)

/-- UnpackIndex (R85): append the index's W bits, take one byte when 8 bits are there. -/
def unpackIndex (idx : Nat) (s : State) : List Byte × State :=
  let t := (s.acc.toNat <<< width s.rsel) + idx
  let c := s.cnt.toNat + width s.rsel
  if 8 ≤ c then ([BitVec.ofNat 8 (t >>> (c - 8))], s.setReservoir (t % 2 ^ (c - 8)) (c - 8))
  else ([], s.setReservoir t c)

end Sys2Proof.Machine
end

