-- ==== Sys2Proof/Machine/Flags.lean ====
section
/-! DEFINITION. The flags ERR and PADF: the status ERR stands for, and the checks that read PADF and POS and set ERR or PADF
(`42_padding_fsm.md` R121 to R125, `40_bit_reservoir.md` R87, `60_exceptions.md` R181 to R188). -/

namespace Sys2Proof.Machine

/-- ERR as a response's STATUS; the two share one encoding (`10_state.md` R27, `30_encoding.md` R68). -/
def errStatus : Err → Status
  | .noError             => .ok
  | .invalidSymbol       => .invalidSymbol
  | .malformedLength     => .malformedLength
  | .malformedPadding    => .malformedPadding
  | .nonZeroTrailingBits => .nonZeroTrailingBits

/-- A `raise E` inside PUTS (`43_commands.md` R153): "sets ERR, writes nothing else, and responds with that code and no
data". -/
def State.failWith (e : Err) (s : State) : State := (s.raise e).respond (errStatus e) []

/-- PadOut (R121): the pads that complete the final block of a padded codec. -/
def padOut (s : State) : List Datum × State :=
  (if padded s.rsel = true then
      List.replicate ((blockSymbols s.rsel - s.pos.toNat) % blockSymbols s.rsel) (.symbol padChar)
    else [],
   s.setPos 0)

/-- Whether PadIn refuses the pad (R123): a first pad at a POS that is not in VALIDM, or a pad after the block is complete. -/
def padInRefuses (s : State) : Bool :=
  if s.padf = false then !(validM s.rsel).contains s.pos.toNat else s.pos.toNat == 0

/-- PadIn's writes on an accepted pad (R123): PADF <- 1, POS advanced. ACC and CNT are not touched. -/
def acceptPad (s : State) : State := (s.setPadf true).advancePos

/-- DecodeEnd (R125): too few pads is MalformedPadding; without pads, a length outside VALIDEND is MalformedLength. -/
def decodeEnd (s : State) : State :=
  if s.padf = true then
    if s.pos.toNat ≠ 0 then s.raise .malformedPadding else s
  else if (validEnd s.rsel).contains s.pos.toNat then s
  else s.raise .malformedLength

/-- UnpackEnd (R87): a leftover bit that is 1 is NonZeroTrailingBits. -/
def unpackEnd (s : State) : State :=
  if s.acc.toNat ≠ 0 then s.raise .nonZeroTrailingBits else s

/-- The checks of FIN in DEC (R154, R188): each is skipped once ERR is set. ERR afterwards is FIN's status. -/
def decodeChecks (s : State) : State :=
  let s1 := if s.err = .noError then decodeEnd s else s
  if s1.err = .noError then unpackEnd s1 else s1

end Sys2Proof.Machine
end

