-- ==== Sys2Proof/Machine/Control.lean ====
section
/-! DEFINITION. The commands that open and close a conversion: CFG and FIN (`43_commands.md` R151, R154). -/

namespace Sys2Proof.Machine

/-- The phase a direction opens (R151). -/
def phaseOfDir : Dir → Phase
  | .encode => .enc
  | .decode => .dec

/-- CFG (R151): accepted in every phase; an open conversion is abandoned without output or error. -/
def execCfg (d : Dir) (r : Rsel) (s : State) : Host.Outcome State Fault Refusal :=
  .next ((((s.setRsel r).setPhase (phaseOfDir d)).clearConversion).respond .ok [])

/-- The end of FIN (R154): PHASE <- IDLE, the conversion's registers cleared, RSEL kept, one response. -/
def closeConversion (st : Status) (data : List Datum) (s : State) : State :=
  ((s.setPhase .idle).clearConversion).respond st data

/-- FIN in ENC (R154): the tail symbol, then the pads; the status is always OK. -/
def finishEncode (s : State) : Host.Outcome State Fault Refusal :=
  match emitIndices (packTail s).1 (packTail s).2 with
  | none => .fault .romIndexOutOfRange
  | some (tail, s1) => .next (closeConversion .ok (tail ++ (padOut s1).1) (padOut s1).2)

/-- FIN in DEC (R154): the checks, then the status ERR stands at; no byte is emitted. -/
def finishDecode (s : State) : Host.Outcome State Fault Refusal :=
  .next (closeConversion (errStatus (decodeChecks s).err) [] (decodeChecks s))

/-- FIN (R154); in IDLE it is ILLEGAL (R160). -/
def execFin (s : State) : Host.Outcome State Fault Refusal :=
  match s.phase with
  | .idle => .next s.rejectCommand
  | .enc  => finishEncode s
  | .dec  => finishDecode s

end Sys2Proof.Machine
end

