-- ==== Sys2Proof/Machine/Data.lean ====
section
/-! DEFINITION. The commands that feed one input element: PUTB and PUTS (`43_commands.md` R152, R153). -/

namespace Sys2Proof.Machine

/-- PUTB in ENC (R152): PackByte, then one symbol for each index, POS advanced for each. -/
def encodeByte (b : Byte) (s : State) : Host.Outcome State Fault Refusal :=
  match emitIndices (packByte b s).1 (packByte b s).2 with
  | none => .fault .romIndexOutOfRange
  | some (ds, s1) => .next (s1.respond .ok ds)

/-- PUTB (R152); outside ENC it is ILLEGAL (R160). -/
def execPutb (b : Byte) (s : State) : Host.Outcome State Fault Refusal :=
  match s.phase with
  | .enc  => encodeByte b s
  | .idle => .next s.rejectCommand
  | .dec  => .next s.rejectCommand

/-- A pad in DEC (R123, R153). -/
def decodePad (s : State) : State :=
  if padInRefuses s = true then s.failWith .malformedPadding else (acceptPad s).respond .ok []

/-- A table symbol in DEC (R153): SymAfterPad (R124), then UnpackIndex, POS advanced, the byte emitted if there is one. -/
def decodeIndex (idx : Nat) (s : State) : State :=
  if s.padf = true then s.failWith .malformedPadding
  else (unpackIndex idx s).2.advancePos.respond .ok ((unpackIndex idx s).1.map .byte)

/-- PUTS in DEC (R153), in the order of R188: absorption, classification, padding. -/
def decodeSymbol (c : CodePoint) (s : State) : State :=
  if s.err ≠ .noError then s.respond (errStatus s.err) []
  else
    match romS2I s.rom128 s.rsel c with
    | .unknown => s.failWith .invalidSymbol
    | .pad     => decodePad s
    | .sym i   => decodeIndex i s

/-- PUTS (R153); outside DEC it is ILLEGAL (R160). -/
def execPuts (c : CodePoint) (s : State) : Host.Outcome State Fault Refusal :=
  match s.phase with
  | .dec  => .next (decodeSymbol c s)
  | .idle => .next s.rejectCommand
  | .enc  => .next s.rejectCommand

end Sys2Proof.Machine
end

