-- ==== Sys2Proof/Syntax.lean ====
section
/-! DEFINITION. The commands: one constructor for each row of `spec/opcode_table.json` (`30_encoding.md` R70). A word
that is none of them is ILLEGAL; it is no command and is answered by the step itself (`Machine/Step.lean`). -/

namespace Sys2Proof

/-- The four commands with their operands as `30_encoding.md` R66 assembles them: unsigned fields taken as they are. -/
inductive Instr where
  /-- CFG (R61, R151): open a conversion. -/
  | cfg (dir : Dir) (rsel : Rsel)
  /-- PUTB (R62, R152): push one input byte into an encode conversion. -/
  | putb (byte : Byte)
  /-- PUTS (R63, R153): push one input symbol into a decode conversion. -/
  | puts (sym : CodePoint)
  /-- FIN (R64, R154): end the input of the open conversion. -/
  | fin
deriving DecidableEq, Repr

end Sys2Proof
end

