-- ==== Sys2Proof/Machine/Dispatch.lean ====
section
/-! DEFINITION. The meaning of each command, one arm for each constructor of Instr. -/

namespace Sys2Proof.Machine

def exec (i : Instr) (s : State) : Host.Outcome State Fault Refusal :=
  match i with
  | .cfg dir rsel => Sys2Proof.Machine.execCfg dir rsel s
  | .putb byte => Sys2Proof.Machine.execPutb byte s
  | .puts sym => Sys2Proof.Machine.execPuts sym s
  | .fin => Sys2Proof.Machine.execFin s

end Sys2Proof.Machine
end

