-- ==== Sys2Proof/WellFormed.lean ====
section
/-! DEFINITION. What a legal command word is, by the match and mask of each row of the opcode table
(`30_encoding.md` R61 to R64), written apart from the decoder; and what a well-formed command is. -/

namespace Sys2Proof

/-- One row of the opcode table: a word belongs to it when its bits under `mask` are `value`. -/
structure OpcodeRow where
  mnemonic : String
  mask     : Word
  value    : Word
deriving DecidableEq, Repr

/-- The whole opcode map (R61 to R64, R70). -/
def opcodeRows : List OpcodeRow :=
  [ ⟨"CFG",  0xFFFFFFF8, 0x10000000⟩,
    ⟨"PUTB", 0xFFFFFF00, 0x20000000⟩,
    ⟨"PUTS", 0xFFE00000, 0x30000000⟩,
    ⟨"FIN",  0xFFFFFFFF, 0x40000000⟩ ]

/-- The word is one of the row's: its opcode is the row's and its reserved bits are zero. -/
def OpcodeRow.holds (r : OpcodeRow) (w : Word) : Bool := (w &&& r.mask) == r.value

/-- A legal command word: one that some row of the table holds. Every other word is ILLEGAL (R65, R70). -/
def wordWf (w : Word) : Bool := opcodeRows.any fun r => r.holds w

/-- A well-formed command: each operand fits its field (R66: BYTE in [0, 255], SYM in [0, 2^21)). The operands' types
say so already, so this holds of every command (`Sys2Proof.Instr.wf_eq_true`): nothing ill-formed can be written. -/
def Instr.wf : Instr → Bool
  | .cfg _ _ => true
  | .putb b  => decide (b.toNat < 256)
  | .puts c  => decide (c.toNat < 2 ^ 21)
  | .fin     => true

end Sys2Proof
end

