-- ==== Sys2Proof/Decode.lean ====
section
/-! DEFINITION. The decoder of command words, total on all 2^32 words (`30_encoding.md` R65), and the encoder, both
from the format tables R61 to R64. -/

namespace Sys2Proof

/-- Why a word decodes to ILLEGAL (R65): the two kinds of reserved encoding R70 names. -/
inductive Reject where
  /-- OP is 0x0 or 0x5 to 0xF. -/
  | unassignedOpcode
  /-- OP is 0x1 to 0x4 and a reserved bit of that format is not zero. -/
  | reservedBits
deriving DecidableEq, Repr

/-- Bits `lo + n - 1` down to `lo` of a word (R10, `v[hi:lo]`). -/
def wordField (w : Word) (lo n : Nat) : BitVec n := w.extractLsb' lo n

/-- `OP = w[31:28]` (R60). -/
def opcodeOf (w : Word) : BitVec 4 := wordField w 28 4

/-- DIR of the CFG format: 0 = encode, 1 = decode (R61). -/
def dirOfCode (b : BitVec 1) : Dir := if b = 0 then .encode else .decode

/-- The bit that stands for a direction (R61). -/
def codeOfDir : Dir → BitVec 1
  | .encode => 0
  | .decode => 1

/-- RSEL: 0 radix-64, 1 radix-32, 2 radix-16, 3 radix-128 (R6, R61). -/
def rselOfCode (b : BitVec 2) : Rsel :=
  if b = 0 then .radix64 else if b = 1 then .radix32 else if b = 2 then .radix16 else .radix128

/-- The number of a codec (R6, R61). -/
def codeOfRsel : Rsel → BitVec 2
  | .radix64  => 0
  | .radix32  => 1
  | .radix16  => 2
  | .radix128 => 3

/-- `decode(w)` of R65; `ILLEGAL` is the error, with the reason. -/
def decode (w : Word) : Except Reject Instr :=
  if opcodeOf w = 0x1 then
    if wordField w 3 25 = 0 then
      .ok (.cfg (dirOfCode (wordField w 2 1)) (rselOfCode (wordField w 0 2)))
    else .error .reservedBits
  else if opcodeOf w = 0x2 then
    if wordField w 8 20 = 0 then .ok (.putb (wordField w 0 8)) else .error .reservedBits
  else if opcodeOf w = 0x3 then
    if wordField w 21 7 = 0 then .ok (.puts (wordField w 0 21)) else .error .reservedBits
  else if opcodeOf w = 0x4 then
    if wordField w 0 28 = 0 then .ok .fin else .error .reservedBits
  else .error .unassignedOpcode

/-- The word of a command: opcode, reserved zeros, operands, from bit 31 down (R61 to R64). -/
def encode : Instr → Word
  | .cfg d r => 0x1#4 ++ 0#25 ++ codeOfDir d ++ codeOfRsel r
  | .putb b  => 0x2#4 ++ 0#20 ++ b
  | .puts c  => 0x3#4 ++ 0#7 ++ c
  | .fin     => 0x4#4 ++ 0#28

/-- The command word whose bits the opcode table numbers: one word, bit 0 the least significant, every bit at or above
`nbits` zero. The word reaches the port whole, so no byte order enters (`20_memory.md` R46, log entry 9). -/
def tableWord (nbits w : Nat) : Word := BitVec.ofNat 32 (w % 2 ^ nbits)

/-- The command the decoder reads from an instruction of the opcode table; none for an ILLEGAL word. -/
def decodeTableWord (nbits w : Nat) : Option Instr :=
  match decode (tableWord nbits w) with
  | .ok i    => some i
  | .error _ => none

end Sys2Proof
end

