-- ==== Sys2Proof/Machine/Port.lean ====
section
/-! DEFINITION. The command port (`43_commands.md` R150): taking what the host presents next, and presenting a word. -/

namespace Sys2Proof.Machine

/-- The host's next input and the state with it taken from the port; none when the host presents nothing (R51, R150). -/
def takeInput (s : State) : Option (Input × State) :=
  match s.inputs with
  | []      => none
  | x :: xs => some (x, { s with inputs := xs })

/-- The host presents a command word next, before anything else it presents. -/
def State.present (w : Word) (s : State) : State := { s with inputs := .command w :: s.inputs }

end Sys2Proof.Machine
end

