-- ==== Sys2Proof/Machine/Step.lean ====
section
/-! DEFINITION. One step of the block (`43_commands.md` R150): take what the host presents next and answer it whole. -/

namespace Sys2Proof.Machine

/-- With nothing presented the block waits (log entry 3). A reset event resets it (R210). A command word is decoded (R65) and
executed; a word that decodes to ILLEGAL is answered IllegalCommand (R155). -/
def step (s : State) : Host.Outcome State Fault Refusal :=
  match takeInput s with
  | none => .next s
  | some (.reset, s1) => .next s1.resetEvent
  | some (.command w, s1) =>
    match decode w with
    | .ok i    => exec i s1
    | .error _ => .next s1.rejectCommand

/-- The state in which the host presents the table's word next, so that the next step runs it (log entry 2). -/
def State.withFetchWord (s : State) (nbits w : Nat) : State := s.present (tableWord nbits w)

end Sys2Proof.Machine
end

