-- ==== Sys2Proof/Machine/Asm.lean ====
section
/-! DEFINITION. The assembler syntax of `30_encoding.md` R71, as a tree of lines rather than as text (log entry 16): what each line
and each pseudo-instruction expands to. Host side; the block sees only the words. -/

namespace Sys2Proof.Machine

/-- One line of assembly (R71). An operand is the number the line denotes, however it is spelled (`0x41`, `65`, `'A'`). -/
inductive AsmLine where
  /-- `cfg rNN, enc` or `cfg rNN, dec`. -/
  | cfg (r : Rsel) (d : Dir)
  /-- `putb <b>`, b in 0..255. -/
  | putb (b : Nat)
  /-- `puts <c>`, c a code point. -/
  | puts (c : Nat)
  /-- `fin`. -/
  | fin
  /-- `.word <w>`: "the only way to write an ILLEGAL word". -/
  | word (w : Word)
  /-- The pseudo-instruction `encode rNN, b0 b1 ... bk`. -/
  | encodeBytes (r : Rsel) (bs : List Nat)
  /-- The pseudo-instruction `decode rNN, "s0s1...sk"`, by the code points of its characters. -/
  | decodeSymbols (r : Rsel) (cs : List Nat)
deriving DecidableEq, Repr

/-- A line whose numbers fit their fields (R63, R66, R71). -/
def AsmLine.wf : AsmLine → Bool
  | .putb b            => decide (b < 256)
  | .puts c            => decide (c < 2 ^ 21)
  | .encodeBytes _ bs  => bs.all fun b => decide (b < 256)
  | .decodeSymbols _ cs => cs.all fun c => decide (c < 2 ^ 21)
  | .cfg _ _           => true
  | .fin               => true
  | .word _            => true

/-- The words of a line (R71): one for a command, the macro's commands for a pseudo-instruction. -/
def AsmLine.words : AsmLine → List Word
  | .cfg r d            => [encode (.cfg d r)]
  | .putb b             => [encode (.putb (BitVec.ofNat 8 b))]
  | .puts c             => [encode (.puts (BitVec.ofNat 21 c))]
  | .fin                => [encode .fin]
  | .word w             => [w]
  | .encodeBytes r bs   =>
    encode (.cfg .encode r) :: (bs.map fun b => encode (.putb (BitVec.ofNat 8 b))) ++ [encode .fin]
  | .decodeSymbols r cs =>
    encode (.cfg .decode r) :: (cs.map fun c => encode (.puts (BitVec.ofNat 21 c))) ++ [encode .fin]

/-- The assembler: none for a line that denotes no words. -/
def assemble (l : AsmLine) : Option (List Word) := if l.wf = true then some l.words else none

end Sys2Proof.Machine
end

