-- ==== Sys2Proof/Machine/Facade.lean ====
section
/-! DEFINITION. The host side of a conversion: the command sequence of one encode call and of one decode call, and the result the
host reads out of the responses (`43_commands.md` R156, R157). Bytes in, code points out, and back; the text conversions around
them are outside the block (`00_scope.md` R5). -/

namespace Sys2Proof.Machine

/-- `cfg rNN, enc`; one `putb` per byte; `fin` (R156). -/
def encodeCommands (r : Rsel) (bs : List Byte) : List Instr := .cfg .encode r :: (bs.map .putb ++ [.fin])

/-- `cfg rNN, dec`; one `puts` per symbol; `fin` (R157). -/
def decodeCommands (r : Rsel) (cs : List CodePoint) : List Instr := .cfg .decode r :: (cs.map .puts ++ [.fin])

/-- The host presents the words of these commands before anything else it presents. -/
def State.presentAll (is : List Instr) (s : State) : State :=
  { s with inputs := (is.map fun i => .command (encode i)) ++ s.inputs }

/-- The state after the block has answered all of these commands. -/
def runCommands (is : List Instr) (s : State) : Host.Outcome State Fault Refusal :=
  Sys2Proof.core.run is.length (s.presentAll is)

/-- The code points among output values, in order. -/
def symbolsOf : List Datum → List CodePoint
  | []              => []
  | .symbol c :: ds => c :: symbolsOf ds
  | .byte _ :: ds   => symbolsOf ds

/-- The bytes among output values, in order. -/
def bytesOf : List Datum → List Byte
  | []              => []
  | .byte b :: ds   => b :: bytesOf ds
  | .symbol _ :: ds => bytesOf ds

/-- The concatenation of the data of several responses, in order (R12). -/
def dataOf (rs : List Response) : List Datum := rs.flatMap fun r => r.data

/-- The responses returned since the port held `old` of them. -/
def responsesSince (old : Nat) (s : State) : List Response := s.responses.drop old

/-- The encode call (R156): the code points of all its responses; none if the run stops. -/
def encodeCall (r : Rsel) (bs : List Byte) (s : State) : Option (List CodePoint) :=
  match runCommands (encodeCommands r bs) s with
  | .next t    => some (symbolsOf (dataOf (responsesSince s.responses.length t)))
  | .fault _   => none
  | .refused _ => none

/-- What a decode call gives: the bytes when FIN answered OK, else its status, with every byte discarded (R157). -/
def decodeResult (rs : List Response) : Except Status (List Byte) :=
  match rs.getLast? with
  | some f => if f.status = .ok then .ok (bytesOf (dataOf rs)) else .error f.status
  | none   => .ok []

/-- The decode call (R157); none if the run stops. -/
def decodeCall (r : Rsel) (cs : List CodePoint) (s : State) : Option (Except Status (List Byte)) :=
  match runCommands (decodeCommands r cs) s with
  | .next t    => some (decodeResult (responsesSince s.responses.length t))
  | .fault _   => none
  | .refused _ => none

end Sys2Proof.Machine
end

