-- ==== Sys2Proof/Safety.lean ====
section
/-! DEFINITION. What claims call a good state and a safe run: the invariant of `10_state.md` R23 to R28, and runs that never stop. -/

namespace Sys2Proof.Machine

/-- R23: "ACC < 2^CNT, that is every bit of ACC at or above position CNT is zero". -/
abbrev State.ReservoirOk (s : State) : Prop := s.acc.toNat < 2 ^ s.cnt.toNat

/-- IDLE (R24 to R27): no pending bit, POS 0, no flag. -/
def State.IdleOk (s : State) : Prop :=
  s.cnt.toNat = 0 ∧ s.pos.toNat = 0 ∧ s.padf = false ∧ s.err = .noError

/-- ENC (R28): after n bytes, taken modulo the block, CNT = 8·n mod W and POS = floor(8·n / W) mod S; no flag (R26, R27). -/
def State.EncodeOk (s : State) : Prop :=
  s.padf = false ∧ s.err = .noError ∧
    ∃ n, n < blockBytes s.rsel ∧ s.cnt.toNat = 8 * n % width s.rsel ∧
      s.pos.toNat = 8 * n / width s.rsel % blockSymbols s.rsel

/-- DEC (R28): with no pad accepted, CNT = W·POS mod 8; with pads, the codec is padded and some m in VALIDM symbols came before them,
so that CNT = W·m mod 8 and POS is past m or back at 0. ERR between commands is none or an error PUTS raises, MalformedPadding only
for a padded codec (R181 to R184). -/
def State.DecodeOk (s : State) : Prop :=
  s.pos.toNat < blockSymbols s.rsel ∧
  (s.padf = false → s.cnt.toNat = width s.rsel * s.pos.toNat % 8) ∧
  (s.padf = true → padded s.rsel = true ∧
    ∃ m, m ∈ validM s.rsel ∧ s.cnt.toNat = width s.rsel * m % 8 ∧ (s.pos.toNat = 0 ∨ m < s.pos.toNat)) ∧
  (s.err = .noError ∨ s.err = .invalidSymbol ∨ (s.err = .malformedPadding ∧ padded s.rsel = true))

/-- What each phase requires of the registers. -/
def State.PhaseOk (s : State) : Prop :=
  match s.phase with
  | .idle => s.IdleOk
  | .enc  => s.EncodeOk
  | .dec  => s.DecodeOk

/-- The invariant of the block: its radix-128 table is one R103 allows, the reservoir holds CNT bits, and the registers are those of a
state R28 calls reachable. -/
def State.Inv (s : State) : Prop := s.rom128.Allowed ∧ s.ReservoirOk ∧ s.PhaseOk

/-- The seven registers and the ROM of two states are the same (R20): they differ at most in the ports. -/
def State.SameRegisters (s t : State) : Prop :=
  t.phase = s.phase ∧ t.rsel = s.rsel ∧ t.acc = s.acc ∧ t.cnt = s.cnt ∧ t.pos = s.pos ∧ t.padf = s.padf ∧
    t.err = s.err ∧ t.rom128 = s.rom128

/-- The response an outcome ends with; none where the machine stops. -/
def lastAnswer : Host.Outcome State Fault Refusal → Option Response
  | .next t    => t.responses.getLast?
  | .fault _   => none
  | .refused _ => none

/-- The STATUS of the response an outcome ends with. -/
def answerStatus (o : Host.Outcome State Fault Refusal) : Option Status := (lastAnswer o).map fun a => a.status

/-- NOUT of the response an outcome ends with: how many values it carries. -/
def answerCount (o : Host.Outcome State Fault Refusal) : Option Nat := (lastAnswer o).map fun a => a.data.length

/-- A run from `s` never stops: after any number of steps there is a next state (R161: "No command can block or wait"). -/
def RunsForever (s : State) : Prop := ∀ k, ∃ t, Sys2Proof.core.run k s = .next t

end Sys2Proof.Machine
end

