-- ==== Sys2Proof/Certificates/Slice0/Obligations.lean ====
section
/-! DEFINITION. The statements for the provers: what the commands and the block do, from the numbered rules of the spec. -/

open Sys2Proof Sys2Proof.Machine

/-! ### Encoding -/

/-- R65, the whole of `decode(w)`: each format's opcode and reserved bits, its operand fields, and ILLEGAL for every other word. -/
def Obligations.DecodeFollowsTheFormats : Prop :=
  ∀ w : Word,
    let op := (w.extractLsb 31 28).toNat
    (op = 1 → (w.extractLsb 27 3).toNat = 0 →
      decode w = .ok (.cfg (if w.getLsbD 2 then .decode else .encode)
        (match (w.extractLsb 1 0).toNat with
          | 0 => .radix64
          | 1 => .radix32
          | 2 => .radix16
          | _ => .radix128))) ∧
    (op = 2 → (w.extractLsb 27 8).toNat = 0 → decode w = .ok (.putb (w.extractLsb 7 0))) ∧
    (op = 3 → (w.extractLsb 27 21).toNat = 0 → decode w = .ok (.puts (w.extractLsb 20 0))) ∧
    (op = 4 → (w.extractLsb 27 0).toNat = 0 → decode w = .ok .fin) ∧
    ((∃ e, decode w = .error e) ↔
      op = 0 ∨ 5 ≤ op ∨ (op = 1 ∧ (w.extractLsb 27 3).toNat ≠ 0) ∨ (op = 2 ∧ (w.extractLsb 27 8).toNat ≠ 0) ∨
        (op = 3 ∧ (w.extractLsb 27 21).toNat ≠ 0) ∨ (op = 4 ∧ (w.extractLsb 27 0).toNat ≠ 0))

/-- Decoding the word of a command gives the command back, for every command and every operand. -/
def Obligations.DecodeOfEncodeIsTheCommand : Prop :=
  ∀ i : Instr, decode (encode i) = .ok i

/-- A word that decodes to a command is that command's word: no two words mean one command. -/
def Obligations.EncodeOfDecodedIsTheWord : Prop :=
  ∀ (w : Word) (i : Instr), decode w = .ok i → encode i = w

/-- The decoder accepts exactly the words that match a row of the opcode table under its mask. -/
def Obligations.DecodeAcceptsExactlyTableWords : Prop :=
  ∀ w : Word, (∃ i, decode w = .ok i) ↔ wordWf w = true

/-- Words of R71's table, and one of R65's ILLEGAL words, written out. -/
def Obligations.SpecWordsDecode : Prop :=
  decode 0x10000001 = .ok (.cfg .encode .radix32) ∧
  decode 0x10000007 = .ok (.cfg .decode .radix128) ∧
  decode 0x20000041 = .ok (.putb 0x41) ∧
  decode 0x30000051 = .ok (.puts 0x51) ∧
  decode 0x40000000 = .ok .fin ∧
  decode 0x00000000 = .error .unassignedOpcode

/-- R71: the word of each command line of assembly, and the commands of each pseudo-instruction over numbers in range. R71 says nothing
of a number out of range: that `putb b` with 256 <= b and `puts c` with 2^21 <= c denote no words is the model's choice (log entry 17),
and nothing is said here of a pseudo-instruction over such a number. -/
def Obligations.AssemblerWords : Prop :=
  (∀ r d, assemble (.cfg r d) =
    some [BitVec.ofNat 32 (0x10000000
      + (match d with | .encode => 0 | .decode => 4)
      + (match r with | .radix64 => 0 | .radix32 => 1 | .radix16 => 2 | .radix128 => 3))]) ∧
  (∀ b, b < 256 → assemble (.putb b) = some [BitVec.ofNat 32 (0x20000000 + b)]) ∧
  (∀ b, 256 ≤ b → assemble (.putb b) = none) ∧
  (∀ c, c < 2 ^ 21 → assemble (.puts c) = some [BitVec.ofNat 32 (0x30000000 + c)]) ∧
  (∀ c, 2 ^ 21 ≤ c → assemble (.puts c) = none) ∧
  assemble .fin = some [0x40000000] ∧
  (∀ w, assemble (.word w) = some [w]) ∧
  (∀ r bs, (∀ b ∈ bs, b < 256) → assemble (.encodeBytes r bs) =
    some (encode (.cfg .encode r) :: (bs.map fun b => BitVec.ofNat 32 (0x20000000 + b)) ++ [0x40000000])) ∧
  (∀ r cs, (∀ c ∈ cs, c < 2 ^ 21) → assemble (.decodeSymbols r cs) =
    some (encode (.cfg .decode r) :: (cs.map fun c => BitVec.ofNat 32 (0x30000000 + c)) ++ [0x40000000]))

/-- R67, R68: the header's fields and the data words of a response with at most 7 values; reserved bits are 0. -/
def Obligations.ResponseWordsFollowTheFormat : Prop :=
  (∀ a : Response, a.data.length ≤ 7 →
    responseWords a = responseHeader a :: a.data.map datumWord ∧
    ((responseHeader a).extractLsb 31 10).toNat = 0 ∧
    ((responseHeader a).extractLsb 9 8).toNat = (match a.phase with | .idle => 0 | .enc => 1 | .dec => 2) ∧
    (responseHeader a).getLsbD 7 = false ∧
    ((responseHeader a).extractLsb 6 4).toNat = a.data.length ∧
    (responseHeader a).getLsbD 3 = false ∧
    ((responseHeader a).extractLsb 2 0).toNat =
      (match a.status with
        | .ok => 0
        | .invalidSymbol => 1
        | .malformedLength => 2
        | .malformedPadding => 3
        | .nonZeroTrailingBits => 4
        | .illegalCommand => 5)) ∧
  (∀ c : CodePoint, (datumWord (.symbol c)).toNat = c.toNat) ∧
  (∀ b : Byte, (datumWord (.byte b)).toNat = b.toNat)

/-! ### The step -/

/-- A step runs the command the presented word decodes to, at the state with that word taken from the port. -/
def Obligations.StepExecutesTheDecodedCommand : Prop :=
  ∀ (s : State) (w : Word) (rest : List Input) (i : Instr),
    s.inputs = .command w :: rest → decode w = .ok i → step s = exec i { s with inputs := rest }

/-- A word of the opcode table placed by `withFetchWord` is the next one the step runs, at the very state it was placed in. -/
def Obligations.PlacedWordRunsNext : Prop :=
  ∀ (s : State) (nbits w : Nat) (i : Instr),
    decodeTableWord nbits w = some i → step (s.withFetchWord nbits w) = exec i s

/-- With nothing presented the block waits and nothing changes (the model's reading, log entry 3). -/
def Obligations.BlockWaitsForACommand : Prop :=
  ∀ s : State, s.inputs = [] → step s = .next s

/-- R155: an ILLEGAL word, and every legal command in a phase that rejects it, answers IllegalCommand with no data and writes no
register. -/
def Obligations.IllegalCommandsWriteNothing : Prop :=
  ∀ (s : State) (w : Word) (rest : List Input), s.inputs = .command w :: rest →
    ((∃ e, decode w = .error e) ∨ (∃ b, decode w = .ok (.putb b) ∧ s.phase ≠ .enc) ∨
      (∃ c, decode w = .ok (.puts c) ∧ s.phase ≠ .dec) ∨ (decode w = .ok .fin ∧ s.phase = .idle)) →
    step s = .next { s with inputs := rest, responses := s.responses ++ [⟨.illegalCommand, s.phase, []⟩] }

/-- R160: in a good state a command answers IllegalCommand exactly where the table of phases says so; CFG never does. -/
def Obligations.LegalityByPhase : Prop :=
  ∀ (s : State) (i : Instr), s.Inv →
    (answerStatus (exec i s) = some .illegalCommand ↔
      (∃ b, i = .putb b ∧ s.phase ≠ .enc) ∨ (∃ c, i = .puts c ∧ s.phase ≠ .dec) ∨ (i = .fin ∧ s.phase = .idle))

/-- R210: the reset event gives every register its reset value, sends no response and leaves the ROM. -/
def Obligations.ResetEventGivesTheResetState : Prop :=
  ∀ (s : State) (rest : List Input), s.inputs = .reset :: rest →
    step s = .next { s with phase := .idle, rsel := .radix64, acc := 0, cnt := 0, pos := 0, padf := false,
                            err := .noError, inputs := rest }

/-- R31: every register after reset; and the state FIN leaves has the same registers except RSEL, which FIN keeps. -/
def Obligations.ResetValues : Prop :=
  (State.reset.phase = .idle ∧ State.reset.rsel = .radix64 ∧ State.reset.acc = 0 ∧ State.reset.cnt = 0 ∧
    State.reset.pos = 0 ∧ State.reset.padf = false ∧ State.reset.err = .noError) ∧
  (∀ s t : State, s.phase ≠ .idle → exec .fin s = .next t →
    t = { State.resetWith s.rom128 with rsel := s.rsel, inputs := s.inputs, responses := t.responses })

/-- R150, R51: each command word gets exactly one response, appended after the earlier ones, with PHASE as it then stands. -/
def Obligations.EachCommandGetsOneResponse : Prop :=
  ∀ (s t : State) (w : Word) (rest : List Input), s.inputs = .command w :: rest → step s = .next t →
    t.inputs = rest ∧ ∃ a : Response, t.responses = s.responses ++ [a] ∧ a.phase = t.phase

/-- R51: over a run, inputs are taken in the order presented, one a step, and responses are only ever appended. -/
def Obligations.RunsAnswerInOrder : Prop :=
  ∀ (k : Nat) (s t : State), Sys2Proof.core.run k s = .next t →
    t.inputs = s.inputs.drop k ∧ ∃ added : List Response, t.responses = s.responses ++ added ∧ added.length ≤ k

/-! ### CFG -/

/-- R151: CFG opens a conversion in any state. -/
def Obligations.CfgOpensAConversion : Prop :=
  ∀ (r : Rsel) (s : State),
    exec (.cfg .encode r) s =
      .next { s with rsel := r, phase := .enc, acc := 0, cnt := 0, pos := 0, padf := false, err := .noError,
                     responses := s.responses ++ [⟨.ok, .enc, []⟩] } ∧
    exec (.cfg .decode r) s =
      .next { s with rsel := r, phase := .dec, acc := 0, cnt := 0, pos := 0, padf := false, err := .noError,
                     responses := s.responses ++ [⟨.ok, .dec, []⟩] }

/-! ### PUTB -/

/-- R81, R152: PUTB in ENC appends the byte and takes one complete group or two, oldest bits first; in other phases it is rejected. -/
def Obligations.PutbPacksTheByte : Prop :=
  ∀ (b : Byte) (s : State),
    (s.phase = .enc → s.ReservoirOk → s.cnt.toNat < width s.rsel →
      let W := width s.rsel
      let S := blockSymbols s.rsel
      let T := s.acc.toNat * 256 + b.toNat
      let C := s.cnt.toNat + 8
      (C < 2 * W → ∃ c0, romI2S s.rom128 s.rsel (T / 2 ^ (C - W)) = some c0 ∧
        exec (.putb b) s =
          .next { s with acc := BitVec.ofNat 7 (T % 2 ^ (C - W)), cnt := BitVec.ofNat 3 (C - W),
                         pos := BitVec.ofNat 3 ((s.pos.toNat + 1) % S),
                         responses := s.responses ++ [⟨.ok, .enc, [.symbol c0]⟩] }) ∧
      (2 * W ≤ C → ∃ c0 c1, romI2S s.rom128 s.rsel (T / 2 ^ (C - W)) = some c0 ∧
        romI2S s.rom128 s.rsel (T % 2 ^ (C - W) / 2 ^ (C - 2 * W)) = some c1 ∧
        exec (.putb b) s =
          .next { s with acc := BitVec.ofNat 7 (T % 2 ^ (C - 2 * W)), cnt := BitVec.ofNat 3 (C - 2 * W),
                         pos := BitVec.ofNat 3 ((s.pos.toNat + 2) % S),
                         responses := s.responses ++ [⟨.ok, .enc, [.symbol c0, .symbol c1]⟩] })) ∧
    (s.phase ≠ .enc →
      exec (.putb b) s = .next { s with responses := s.responses ++ [⟨.illegalCommand, s.phase, []⟩] })

/-- R82: PackByte emits floor((CNT + 8) / W) indices, 1 or 2, exactly 2 when CNT + 8 >= 2·W, and leaves CNT = (CNT + 8) mod W. -/
def Obligations.PackByteIndexCount : Prop :=
  ∀ (b : Byte) (s : State), s.cnt.toNat < width s.rsel →
    (packByte b s).1.length = (s.cnt.toNat + 8) / width s.rsel ∧
    ((packByte b s).1.length = 1 ∨ (packByte b s).1.length = 2) ∧
    ((packByte b s).1.length = 2 ↔ 2 * width s.rsel ≤ s.cnt.toNat + 8) ∧
    (packByte b s).2.cnt.toNat = (s.cnt.toNat + 8) % width s.rsel

/-- R44, R80: PackByte is a queue of bits, most significant first: the bits held and the byte's, read as one number, are the emitted
indices in base 2^W followed by the bits still held. -/
def Obligations.PackByteKeepsTheBitQueue : Prop :=
  ∀ (b : Byte) (s : State), s.ReservoirOk → s.cnt.toNat < width s.rsel →
    ((packByte b s).1.foldl (fun a i => a * 2 ^ width s.rsel + i) 0) * 2 ^ (packByte b s).2.cnt.toNat
        + (packByte b s).2.acc.toNat = s.acc.toNat * 2 ^ 8 + b.toNat ∧
    (packByte b s).1.length * width s.rsel + (packByte b s).2.cnt.toNat = s.cnt.toNat + 8 ∧
    (∀ i ∈ (packByte b s).1, i < 2 ^ width s.rsel) ∧
    (packByte b s).2.acc.toNat < 2 ^ (packByte b s).2.cnt.toNat

/-- R186: in ENC every PUTB and every FIN answers OK, and the only other status any command word can get there is IllegalCommand. -/
def Obligations.EncodeConversionsRaiseNoError : Prop :=
  ∀ s : State, s.Inv → s.phase = .enc →
    (∀ b, answerStatus (exec (.putb b) s) = some .ok) ∧
    answerStatus (exec .fin s) = some .ok ∧
    (∀ (w : Word) (rest : List Input), s.inputs = .command w :: rest →
      answerStatus (step s) = some .ok ∨
        (answerStatus (step s) = some .illegalCommand ∧
          ((∃ e, decode w = .error e) ∨ ∃ c, decode w = .ok (.puts c))))

/-! ### PUTS -/

/-- R187, R153: once ERR is set, PUTS is absorbed: nothing changes and ERR is reported. -/
def Obligations.PutsIsAbsorbedAfterAnError : Prop :=
  ∀ (c : CodePoint) (s : State), s.phase = .dec → s.err ≠ .noError →
    ∃ a : Response, exec (.puts c) s = .next { s with responses := s.responses ++ [a] } ∧
      a.phase = .dec ∧ a.data = [] ∧
      a.status =
        (match s.err with
          | .noError => .ok
          | .invalidSymbol => .invalidSymbol
          | .malformedLength => .malformedLength
          | .malformedPadding => .malformedPadding
          | .nonZeroTrailingBits => .nonZeroTrailingBits)

/-- R181: a symbol that is no entry of the table and not the pad of a padded codec is InvalidSymbol; ERR alone is written. -/
def Obligations.PutsInvalidSymbol : Prop :=
  ∀ (c : CodePoint) (s : State), s.phase = .dec → s.err = .noError →
    c ∉ romTable s.rom128 s.rsel → ¬(padded s.rsel = true ∧ c = 0x3D) →
    exec (.puts c) s = .next { s with err := .invalidSymbol, responses := s.responses ++ [⟨.invalidSymbol, .dec, []⟩] }

/-- R123: PadIn. A first pad needs POS in VALIDM, a later one POS ≠ 0; an accepted pad sets PADF and advances POS, a refused one is
MalformedPadding and writes ERR alone. -/
def Obligations.PutsPad : Prop :=
  ∀ s : State, s.phase = .dec → s.err = .noError → padded s.rsel = true →
    ((s.padf = false ∧ s.pos.toNat ∈ validM s.rsel) ∨ (s.padf = true ∧ s.pos.toNat ≠ 0) →
      exec (.puts 0x3D) s =
        .next { s with padf := true, pos := BitVec.ofNat 3 ((s.pos.toNat + 1) % blockSymbols s.rsel),
                       responses := s.responses ++ [⟨.ok, .dec, []⟩] }) ∧
    ((s.padf = false ∧ s.pos.toNat ∉ validM s.rsel) ∨ (s.padf = true ∧ s.pos.toNat = 0) →
      exec (.puts 0x3D) s =
        .next { s with err := .malformedPadding, responses := s.responses ++ [⟨.malformedPadding, .dec, []⟩] })

/-- R124: a table symbol after a pad is MalformedPadding. -/
def Obligations.PutsSymbolAfterPad : Prop :=
  ∀ (c : CodePoint) (s : State), s.phase = .dec → s.err = .noError → s.padf = true →
    c ∈ romTable s.rom128 s.rsel →
    exec (.puts c) s =
      .next { s with err := .malformedPadding, responses := s.responses ++ [⟨.malformedPadding, .dec, []⟩] }

/-- R85, R153: a table symbol with no pad before it appends its index's W bits and gives a byte when 8 bits are there. -/
def Obligations.PutsUnpacksTheIndex : Prop :=
  ∀ (c : CodePoint) (idx : Nat) (s : State), s.phase = .dec → s.err = .noError → s.padf = false →
    s.rom128.Distinct → s.ReservoirOk → romI2S s.rom128 s.rsel idx = some c →
    let W := width s.rsel
    let T := s.acc.toNat * 2 ^ W + idx
    let C := s.cnt.toNat + W
    (C < 8 →
      exec (.puts c) s =
        .next { s with acc := BitVec.ofNat 7 T, cnt := BitVec.ofNat 3 C,
                       pos := BitVec.ofNat 3 ((s.pos.toNat + 1) % blockSymbols s.rsel),
                       responses := s.responses ++ [⟨.ok, .dec, []⟩] }) ∧
    (8 ≤ C → T / 2 ^ (C - 8) < 2 ^ 8 ∧
      exec (.puts c) s =
        .next { s with acc := BitVec.ofNat 7 (T % 2 ^ (C - 8)), cnt := BitVec.ofNat 3 (C - 8),
                       pos := BitVec.ofNat 3 ((s.pos.toNat + 1) % blockSymbols s.rsel),
                       responses := s.responses ++ [⟨.ok, .dec, [.byte (BitVec.ofNat 8 (T / 2 ^ (C - 8)))]⟩] })

/-- R86: UnpackIndex emits at most one byte and leaves CNT = (CNT + W) mod 8. -/
def Obligations.UnpackIndexEmitsAtMostOneByte : Prop :=
  ∀ (idx : Nat) (s : State),
    (unpackIndex idx s).1.length ≤ 1 ∧ (unpackIndex idx s).2.cnt.toNat = (s.cnt.toNat + width s.rsel) % 8

/-- R183: in a good decode state without an error, MalformedPadding is answered exactly for its four causes. -/
def Obligations.MalformedPaddingHasFourCauses : Prop :=
  ∀ s : State, s.Inv → s.phase = .dec → s.err = .noError →
    (∀ c : CodePoint, answerStatus (exec (.puts c) s) = some .malformedPadding ↔
      padded s.rsel = true ∧
        ((c = 0x3D ∧ s.padf = false ∧ s.pos.toNat ∉ validM s.rsel) ∨ (c = 0x3D ∧ s.padf = true ∧ s.pos.toNat = 0) ∨
          (c ∈ romTable s.rom128 s.rsel ∧ s.padf = true))) ∧
    (answerStatus (exec .fin s) = some .malformedPadding ↔
      padded s.rsel = true ∧ s.padf = true ∧ s.pos.toNat ≠ 0)

/-! ### FIN -/

/-- R83, R121: FIN in ENC emits the zero-padded tail when bits are pending, then the pads of a padded codec, and returns to IDLE. -/
def Obligations.FinInEncEmitsTailAndPads : Prop :=
  ∀ s : State, s.phase = .enc → s.ReservoirOk → s.cnt.toNat < width s.rsel → s.pos.toNat < blockSymbols s.rsel →
    let S := blockSymbols s.rsel
    let pads : Nat → List Datum := fun p =>
      if padded s.rsel = true then List.replicate ((S - p) % S) (.symbol 0x3D) else []
    (s.cnt.toNat = 0 →
      exec .fin s =
        .next { s with phase := .idle, acc := 0, cnt := 0, pos := 0, padf := false, err := .noError,
                       responses := s.responses ++ [⟨.ok, .idle, pads s.pos.toNat⟩] }) ∧
    (s.cnt.toNat ≠ 0 → ∃ c, romI2S s.rom128 s.rsel (s.acc.toNat * 2 ^ (width s.rsel - s.cnt.toNat)) = some c ∧
      exec .fin s =
        .next { s with phase := .idle, acc := 0, cnt := 0, pos := 0, padf := false, err := .noError,
                       responses := s.responses ++ [⟨.ok, .idle, .symbol c :: pads ((s.pos.toNat + 1) % S)⟩] })

/-- R87, R125, R188: FIN in DEC reports the recorded error, else the padding or length verdict, else the trailing bits, else OK; it
emits nothing and returns to IDLE. -/
def Obligations.FinInDecReportsTheFirstError : Prop :=
  ∀ s : State, s.phase = .dec →
    ∃ st : Status,
      exec .fin s =
        .next { s with phase := .idle, acc := 0, cnt := 0, pos := 0, padf := false, err := .noError,
                       responses := s.responses ++ [⟨st, .idle, []⟩] } ∧
      (s.err ≠ .noError → st = errStatus s.err) ∧
      (s.err = .noError →
        (s.padf = true → s.pos.toNat ≠ 0 → st = .malformedPadding) ∧
        (s.padf = false → s.pos.toNat ∉ validEnd s.rsel → st = .malformedLength) ∧
        ((s.padf = true ∧ s.pos.toNat = 0) ∨ (s.padf = false ∧ s.pos.toNat ∈ validEnd s.rsel) →
          (s.acc.toNat ≠ 0 → st = .nonZeroTrailingBits) ∧ (s.acc.toNat = 0 → st = .ok)))

/-- R182: FIN in DEC answers MalformedLength exactly when no pad was seen and POS is not one the codec lets an unpadded input end at. A
bad length with a pad seen (radix-64 `QQ=`) is MalformedPadding instead (`MalformedPaddingHasFourCauses`). -/
def Obligations.FinMalformedLengthExactly : Prop :=
  ∀ s : State, s.Inv → s.phase = .dec → s.err = .noError →
    (answerStatus (exec .fin s) = some .malformedLength ↔
      s.padf = false ∧
        (match s.rsel with
          | .radix64 => s.pos.toNat ≠ 0
          | .radix32 => s.pos.toNat ≠ 0
          | .radix16 => s.pos.toNat = 1
          | .radix128 => s.pos.toNat = 1))

/-- R184: FIN in DEC answers NonZeroTrailingBits exactly when DecodeEnd raises nothing and a leftover bit is 1. -/
def Obligations.FinNonZeroTrailingBitsExactly : Prop :=
  ∀ s : State, s.phase = .dec → s.err = .noError →
    (answerStatus (exec .fin s) = some .nonZeroTrailingBits ↔
      ((s.padf = true ∧ s.pos.toNat = 0) ∨ (s.padf = false ∧ s.pos.toNat ∈ validEnd s.rsel)) ∧ s.acc ≠ 0)

/-! ### The alphabet ROM -/

/-- R100 to R102: the three fixed tables, by their formulas; no entry beyond the last. -/
def Obligations.FixedTablesByFormula : Prop :=
  ∀ (A : Alphabet128) (i : Nat),
    romI2S A .radix64 i =
      (if i ≤ 25 then some (BitVec.ofNat 21 (0x41 + i))
       else if i ≤ 51 then some (BitVec.ofNat 21 (0x61 + (i - 26)))
       else if i ≤ 61 then some (BitVec.ofNat 21 (0x30 + (i - 52)))
       else if i = 62 then some 0x2B else if i = 63 then some 0x2F else none) ∧
    romI2S A .radix32 i =
      (if i ≤ 25 then some (BitVec.ofNat 21 (0x41 + i))
       else if i ≤ 31 then some (BitVec.ofNat 21 (0x32 + (i - 26))) else none) ∧
    romI2S A .radix16 i =
      (if i ≤ 9 then some (BitVec.ofNat 21 (0x30 + i))
       else if i ≤ 15 then some (BitVec.ofNat 21 (0x41 + (i - 10))) else none)

/-- R105: the three kinds of result of RomS2I, by membership in the table; only radix-64 and radix-32 have a pad. -/
def Obligations.RomClassifiesSymbols : Prop :=
  (∀ t : Rsel, padded t = true ↔ t = .radix64 ∨ t = .radix32) ∧
  ∀ (A : Alphabet128) (t : Rsel) (c : CodePoint),
    (c ∈ romTable A t → ∃ i, romS2I A t c = .sym i ∧ i < alphabetSize t ∧ romI2S A t i = some c) ∧
    (c ∉ romTable A t → padded t = true → c = 0x3D → romS2I A t c = .pad) ∧
    (c ∉ romTable A t → ¬(padded t = true ∧ c = 0x3D) → romS2I A t c = .unknown)

/-- R106: the entries of every table are distinct, and the two ports are inverse to each other. -/
def Obligations.RomPortsAreInverse : Prop :=
  ∀ (A : Alphabet128), A.Distinct → ∀ t : Rsel,
    (romTable A t).Nodup ∧ ∀ (i : Nat) (c : CodePoint), romI2S A t i = some c ↔ romS2I A t c = .sym i

/-- R107: the pad is no entry of a padded codec's table. -/
def Obligations.PadIsNoTableEntry : Prop :=
  ∀ (A : Alphabet128) (t : Rsel), padded t = true → (0x3D : CodePoint) ∉ romTable A t

/-- R103 (b), R105: an entry of any table is printable, where printability is the model's reading (log entry 5), so a scalar value; hence a
code point that is no Unicode scalar value (above 0x10FFFF, or a surrogate) is NONE in every table, and PUTS of it in a good decode state
without an error is InvalidSymbol, with ERR alone written. -/
def Obligations.NoTableHoldsANonScalar : Prop :=
  (∀ (A : Alphabet128), A.Printable → ∀ (t : Rsel) (c : CodePoint),
    (c ∈ romTable A t → printable c = true) ∧
    (0x10FFFF < c.toNat ∨ (0xD800 ≤ c.toNat ∧ c.toNat ≤ 0xDFFF) → romS2I A t c = .unknown)) ∧
  (∀ (s : State) (c : CodePoint), s.Inv → s.phase = .dec → s.err = .noError →
    (0x10FFFF < c.toNat ∨ (0xD800 ≤ c.toNat ∧ c.toNat ≤ 0xDFFF)) →
    exec (.puts c) s = .next { s with err := .invalidSymbol, responses := s.responses ++ [⟨.invalidSymbol, .dec, []⟩] })

/-- R109: with no initialisation, from reset on and whatever the host presents, the ROM holds the tables it was built with, and both lookup
ports answer for every index, inverse to each other. -/
def Obligations.RomIsValidFromReset : Prop :=
  ∀ (A : Alphabet128), A.Allowed → ∀ (ins : List Input) (k : Nat),
    ∃ t, Sys2Proof.core.run k { State.resetWith A with inputs := ins } = .next t ∧ t.rom128 = A ∧
      ∀ (r : Rsel) (i : Nat), i < alphabetSize r →
        ∃ c, romI2S t.rom128 r i = some c ∧ romS2I t.rom128 r c = .sym i

/-! ### Invariants and whole-machine rules -/

/-- The state after reset is a good state, whichever table R103 allows the block was built with. -/
def Obligations.ResetSatisfiesInv : Prop :=
  (∀ A : Alphabet128, A.Allowed → (State.resetWith A).Inv) ∧ State.reset.Inv

/-- R23 to R28, with a table R103 allows, are kept by every step, from every state that meets them. -/
def Obligations.StepKeepsInv : Prop :=
  ∀ s t : State, s.Inv → step s = .next t → t.Inv

/-- R150, R161: from a good state the block answers every input, for ever. -/
def Obligations.GoodStatesRunForever : Prop :=
  ∀ s : State, s.Inv → RunsForever s

/-- R30: nothing writes the ROM. -/
def Obligations.NothingWritesTheRom : Prop :=
  ∀ s t : State, step s = .next t → t.rom128 = s.rom128

/-- R22: RSEL changes only by reset, or by a CFG that selects the new value. -/
def Obligations.OnlyCfgAndResetWriteRsel : Prop :=
  ∀ s t : State, step s = .next t → t.rsel ≠ s.rsel →
    (∃ rest, s.inputs = .reset :: rest) ∨
    (∃ w rest d, s.inputs = .command w :: rest ∧ decode w = .ok (.cfg d t.rsel))

/-- R21, R163: PHASE changes only by CFG to ENC or DEC, by FIN to IDLE, and by reset to IDLE. -/
def Obligations.OnlyCfgFinAndResetMovePhase : Prop :=
  ∀ s t : State, step s = .next t → t.phase ≠ s.phase →
    (∃ rest, s.inputs = .reset :: rest ∧ t.phase = .idle) ∨
    (∃ w rest r, s.inputs = .command w :: rest ∧
      ((decode w = .ok (.cfg .encode r) ∧ t.phase = .enc) ∨ (decode w = .ok (.cfg .decode r) ∧ t.phase = .dec) ∨
        (decode w = .ok .fin ∧ t.phase = .idle)))

/-- R187, R189: ERR is set once, by a PUTS in DEC that writes nothing else; it then stays until CFG or FIN clears it. -/
def Obligations.FirstErrorIsRecordedAndSticky : Prop :=
  ∀ (s t : State) (w : Word) (rest : List Input) (i : Instr),
    s.inputs = .command w :: rest → decode w = .ok i → step s = .next t →
    (((∃ d r, i = .cfg d r) ∨ (i = .fin ∧ s.phase ≠ .idle)) → t.err = .noError) ∧
    (¬((∃ d r, i = .cfg d r) ∨ (i = .fin ∧ s.phase ≠ .idle)) →
      (s.err ≠ .noError → t.err = s.err) ∧
      (s.err = .noError → t.err ≠ .noError →
        s.phase = .dec ∧ (∃ c, i = .puts c) ∧ (t.err = .invalidSymbol ∨ t.err = .malformedPadding) ∧
          t = { s with inputs := rest, err := t.err, responses := s.responses ++ [⟨errStatus t.err, .dec, []⟩] }))

/-- R108: every value emitted in ENC is a symbol of the selected table or a padded codec's pad; every value emitted in DEC is a byte. -/
def Obligations.EmittedValuesBelongToTheCodec : Prop :=
  ∀ (s t : State) (w : Word) (rest : List Input), s.inputs = .command w :: rest → step s = .next t →
    ∀ a ∈ responsesSince s.responses.length t, ∀ d ∈ a.data,
      (s.phase = .enc ∧ ∃ c, d = .symbol c ∧ (c ∈ romTable s.rom128 s.rsel ∨ (padded s.rsel = true ∧ c = 0x3D))) ∨
      (s.phase = .dec ∧ ∃ b, d = .byte b)

/-- R69: how many values each command emits, in every good state. -/
def Obligations.ResponseCountsByCommand : Prop :=
  ∀ s : State, s.Inv →
    (∀ d r, answerCount (exec (.cfg d r) s) = some 0) ∧
    (s.phase = .enc → ∀ b, answerCount (exec (.putb b) s) = some 2 ∨
      (answerCount (exec (.putb b) s) = some 1 ∧ s.rsel ≠ .radix16)) ∧
    (s.phase = .dec → ∀ c, answerCount (exec (.puts c) s) = some 0 ∨ answerCount (exec (.puts c) s) = some 1) ∧
    (s.phase = .enc → ∃ n, answerCount (exec .fin s) = some n ∧
      n ≤ (match s.rsel with | .radix64 => 3 | .radix32 => 7 | .radix16 => 0 | .radix128 => 1)) ∧
    (s.phase = .dec → answerCount (exec .fin s) = some 0) ∧
    (answerCount (Host.Outcome.next s.rejectCommand) = some 0)

/-- R24, R28: the values CNT takes in good states, codec by codec. -/
def Obligations.CntTakesOnlyTheListedValues : Prop :=
  ∀ s : State, s.Inv →
    (s.phase = .idle → s.cnt.toNat = 0 ∧ s.acc.toNat = 0) ∧
    (s.phase = .enc → s.cnt.toNat < width s.rsel ∧
      (match s.rsel with
        | .radix64 => s.cnt.toNat ∈ [0, 2, 4]
        | .radix32 => s.cnt.toNat ∈ [0, 1, 2, 3, 4]
        | .radix16 => s.cnt.toNat = 0
        | .radix128 => s.cnt.toNat ∈ [0, 1, 2, 3, 4, 5, 6])) ∧
    (s.phase = .dec →
      (match s.rsel with
        | .radix64 => s.cnt.toNat ∈ [0, 2, 4, 6]
        | .radix32 => s.cnt.toNat ∈ [0, 1, 2, 3, 4, 5, 6, 7]
        | .radix16 => s.cnt.toNat ∈ [0, 4]
        | .radix128 => s.cnt.toNat ∈ [0, 1, 2, 3, 4, 5, 6, 7]))

/-- R162: in good states nothing is cut. PackByte's and UnpackIndex's T is below 2^14 and C at most 14; the naturals each writes back
are below 2^7 and 2^3, and ACC and CNT hold those very naturals; the index PackTail emits is below 2^W, the byte UnpackIndex emits is the
whole quotient, and POS stays below S as it advances. -/
def Obligations.IntermediateValuesFit : Prop :=
  ∀ s : State, s.Inv →
    let W := width s.rsel
    let S := blockSymbols s.rsel
    (s.phase = .enc → ∀ b : Byte,
      let T := s.acc.toNat * 2 ^ 8 + b.toNat
      let C := s.cnt.toNat + 8
      let left := (packLoop W 3 T C).2
      T < 2 ^ 14 ∧ C ≤ 14 ∧ left.1 < 2 ^ 7 ∧ left.2 < 2 ^ 3 ∧
      packByte b s = ((packLoop W 3 T C).1, s.setReservoir left.1 left.2) ∧
      (packByte b s).2.acc.toNat = left.1 ∧ (packByte b s).2.cnt.toNat = left.2 ∧
      left.1 = T % 2 ^ (C % W) ∧ left.2 = C % W) ∧
    (s.phase = .enc → ∀ i ∈ (packTail s).1, i < 2 ^ W) ∧
    (s.phase = .dec → ∀ idx, idx < 2 ^ W →
      let T := s.acc.toNat * 2 ^ W + idx
      let C := s.cnt.toNat + W
      let leftBits := if 8 ≤ C then T % 2 ^ (C - 8) else T
      let leftCount := if 8 ≤ C then C - 8 else C
      T < 2 ^ 14 ∧ C ≤ 14 ∧ leftBits < 2 ^ 7 ∧ leftCount < 2 ^ 3 ∧
      (unpackIndex idx s).2 = s.setReservoir leftBits leftCount ∧
      (unpackIndex idx s).2.acc.toNat = leftBits ∧ (unpackIndex idx s).2.cnt.toNat = leftCount ∧
      ((unpackIndex idx s).1.map fun b => b.toNat) = (if 8 ≤ C then [T / 2 ^ (C - 8)] else [])) ∧
    s.pos.toNat < S ∧ s.advancePos.pos.toNat = (s.pos.toNat + 1) % S

/-- R22, R31: in IDLE the value of RSEL is never observable: whatever the host does, the responses are the same. -/
def Obligations.RselIsUnobservableInIdle : Prop :=
  ∀ (k : Nat) (s t : State) (r : Rsel), s.phase = .idle → Sys2Proof.core.run k s = .next t →
    ∃ t', Sys2Proof.core.run k { s with rsel := r } = .next t' ∧ t'.responses = t.responses

/-- A block that never selects radix-128 answers the same whatever its radix-128 table is. -/
def Obligations.OtherCodecsIgnoreAlphabet128 : Prop :=
  ∀ (s t : State) (A : Alphabet128), s.rsel ≠ .radix128 → step s = .next t →
    step { s with rom128 := A } = .next { t with rom128 := A }

/-! ### Conversions -/

/-- R89: an empty conversion emits nothing and succeeds, in both directions, for every codec and from every state. -/
def Obligations.EmptyConversions : Prop :=
  ∀ (r : Rsel) (s : State), encodeCall r [] s = some [] ∧ decodeCall r [] s = some (.ok [])

/-- R90: after every complete block, that is after any number of whole blocks, the reservoir is empty and POS is 0, in both directions. -/
def Obligations.BlocksRealign : Prop :=
  (∀ (k : Nat) (bs : List Byte) (s : State), s.phase = .enc → s.acc = 0 → s.cnt = 0 → s.pos = 0 →
    bs.length = k * blockBytes s.rsel →
    ∃ t, runCommands (bs.map .putb) s = .next t ∧ t.acc = 0 ∧ t.cnt = 0 ∧ t.pos = 0) ∧
  (∀ (k : Nat) (cs : List CodePoint) (s : State), s.phase = .dec → s.err = .noError → s.padf = false →
    s.acc = 0 → s.cnt = 0 → s.pos = 0 →
    cs.length = k * blockSymbols s.rsel → (∀ c ∈ cs, c ∈ romTable s.rom128 s.rsel) →
    ∃ t, runCommands (cs.map .puts) s = .next t ∧ t.acc = 0 ∧ t.cnt = 0 ∧ t.pos = 0)

/-- R157: after the first error the host may stop presenting symbols: FIN reports the same status after any number of further PUTS. -/
def Obligations.FinReportsTheSameErrorEarlyOrLate : Prop :=
  ∀ (cs : List CodePoint) (s : State), s.phase = .dec → s.err ≠ .noError →
    answerStatus (runCommands (cs.map .puts ++ [.fin]) s) = some (errStatus s.err)

/-- R43, R12: a conversion depends on nothing the block did before it: the registers before CFG, what was answered and what is
presented later do not matter. -/
def Obligations.ConversionsForgetEarlierState : Prop :=
  ∀ (r : Rsel) (s t : State), s.rom128 = t.rom128 →
    (∀ bs, encodeCall r bs s = encodeCall r bs t) ∧ (∀ cs, decodeCall r cs s = decodeCall r cs t)

/-- R122, R84: an encode call of n bytes gives floor(n / L)·S symbols for the whole blocks, ceil(8·r / W) for the r bytes left, and then
the pads. -/
def Obligations.EncodeOutputLength : Prop :=
  ∀ (r : Rsel) (bs : List Byte) (s : State),
    let W := width r
    let S := blockSymbols r
    let m := (8 * (bs.length % blockBytes r) + W - 1) / W
    ∃ ms : List CodePoint,
      encodeCall r bs s =
        some (ms ++ (if padded r = true then List.replicate ((S - m) % S) 0x3D else [])) ∧
      ms.length = bs.length / blockBytes r * S + m ∧
      (∀ c ∈ ms, c ∈ romTable s.rom128 r)

/-- R161: a conversion of n elements is n + 2 commands and gives at most 2·n + 7 values in encode, n in decode. -/
def Obligations.ConversionBounds : Prop :=
  (∀ (r : Rsel) (bs : List Byte) (s : State),
    (encodeCommands r bs).length = bs.length + 2 ∧
    ∃ t, runCommands (encodeCommands r bs) s = .next t ∧
      (dataOf (responsesSince s.responses.length t)).length ≤ 2 * bs.length + 7) ∧
  (∀ (r : Rsel) (cs : List CodePoint) (s : State),
    (decodeCommands r cs).length = cs.length + 2 ∧
    ∃ t, runCommands (decodeCommands r cs) s = .next t ∧
      (dataOf (responsesSince s.responses.length t)).length ≤ cs.length) ∧
  (∀ (s : State) (i : Instr), s.Inv → ∃ t a, exec i s = .next t ∧ t.responses = s.responses ++ [a] ∧ a.data.length ≤ 7)

/-- R126: a radix-16 input of odd length is MalformedLength, even when the leftover bits are zero. -/
def Obligations.OddRadix16InputIsMalformedLength : Prop :=
  ∀ (cs : List CodePoint) (s : State), (∀ c ∈ cs, c ∈ romTable s.rom128 .radix16) → cs.length % 2 = 1 →
    decodeCall .radix16 cs s = some (.error .malformedLength)

/-- R159: decoding what was encoded gives the bytes back, for every codec, every byte sequence and every table with distinct
entries, so every table R103 allows. -/
def Obligations.DecodeOfEncodeIsTheBytes : Prop :=
  ∀ (r : Rsel) (bs : List Byte) (s : State), s.rom128.Distinct →
    ∃ cs, encodeCall r bs s = some cs ∧ decodeCall r cs s = some (.ok bs)

/-- R128: a decode conversion succeeds exactly on the output of an encode conversion, and then gives the bytes encoded. -/
def Obligations.DecodeAcceptsExactlyEncodings : Prop :=
  ∀ (r : Rsel) (cs : List CodePoint) (bs : List Byte) (s : State), s.rom128.Distinct →
    (decodeCall r cs s = some (.ok bs) ↔ encodeCall r bs s = some cs)
end

