-- ==== Sys2Proof/Laws/Operands.lean ====
section
/-! SUPPORT. The arithmetic of the codec constants (`00_scope.md` R7). -/

namespace Sys2Proof.Machine

theorem width_ge_four (r : Rsel) : 4 ≤ width r := by cases r <;> decide

theorem width_le_seven (r : Rsel) : width r ≤ 7 := by cases r <;> decide

theorem blockSymbols_pos (r : Rsel) : 0 < blockSymbols r := by cases r <;> decide

theorem blockSymbols_le_eight (r : Rsel) : blockSymbols r ≤ 8 := by cases r <;> decide

theorem alphabetSize_eq_two_pow_width (r : Rsel) : alphabetSize r = 2 ^ width r := by cases r <;> decide

theorem eight_mul_blockBytes (r : Rsel) : 8 * blockBytes r = width r * blockSymbols r := by cases r <;> decide

/-- `POS <- (POS + 1) mod S` always fits POS. -/
theorem succ_mod_blockSymbols_lt_eight (p : Nat) (r : Rsel) : (p + 1) % blockSymbols r < 8 :=
  Nat.lt_of_lt_of_le (Nat.mod_lt _ (blockSymbols_pos r)) (blockSymbols_le_eight r)

end Sys2Proof.Machine
end

