-- ==== Sys2Proof/Laws/Rom.lean ====
section
/-! SUPPORT. The alphabet ROM: the size of its tables, when a lookup answers, and the search RomS2I rests on. -/

namespace Sys2Proof.Machine

theorem codeRange_length (first n : Nat) : (codeRange first n).length = n := by simp [codeRange]

theorem codeRange_getElem? (first n i : Nat) (h : i < n) :
    (codeRange first n)[i]? = some (BitVec.ofNat 21 (first + i)) := by
  simp [codeRange, h]

/-- Each table has N entries (R40). -/
theorem romTable_length (A : Alphabet128) (t : Rsel) : (romTable A t).length = alphabetSize t := by
  cases t <;> simp [romTable, table64, table32, table16, codeRange_length, alphabetSize]

/-- A printable code point is a scalar value. -/
theorem isScalarValue_of_printable {c : CodePoint} (h : printable c = true) : isScalarValue c = true := by
  simp only [printable, Bool.and_eq_true] at h
  exact h.1.1

/-- What R105 calls not a scalar value, in numbers. -/
theorem isScalarValue_eq_false_iff (c : CodePoint) :
    isScalarValue c = false ↔ 0x10FFFF < c.toNat ∨ (0xD800 ≤ c.toNat ∧ c.toNat ≤ 0xDFFF) := by
  simp only [isScalarValue, Bool.or_eq_false_iff, Bool.and_eq_false_iff, decide_eq_false_iff_not]
  omega

/-- The pad is a printable character. -/
theorem printable_padChar : printable padChar = true := by decide

/-- The entries of the three fixed tables are printable. -/
theorem fixedTables_printable : ∀ c ∈ table64 ++ table32 ++ table16, printable c = true :=
  List.all_eq_true.mp (by decide +kernel)

/-- RomI2S answers on an index below N. -/
theorem romI2S_of_lt (A : Alphabet128) (t : Rsel) {i : Nat} (h : i < alphabetSize t) :
    ∃ c, romI2S A t i = some c :=
  ⟨_, List.getElem?_eq_getElem (by rw [romTable_length]; exact h)⟩

/-- What RomI2S answers is an entry of the table, at an index below N. -/
theorem romI2S_some {A : Alphabet128} {t : Rsel} {i : Nat} {c : CodePoint} (h : romI2S A t i = some c) :
    i < alphabetSize t ∧ c ∈ romTable A t := by
  have := List.getElem?_eq_some_iff.mp h
  obtain ⟨hi, hc⟩ := this
  exact ⟨romTable_length A t ▸ hi, hc ▸ List.getElem_mem hi⟩

/-- The search finds nothing exactly when the code point is not in the table. -/
theorem indexIn_eq_none_iff (c : CodePoint) (l : List CodePoint) : indexIn c l = none ↔ c ∉ l := by
  induction l with
  | nil => simp [indexIn]
  | cons d ds ih =>
    by_cases h : d = c
    · simp [indexIn, h]
    · simp only [indexIn, if_neg h, Option.map_eq_none_iff, ih, List.mem_cons, not_or]
      exact ⟨fun hc => ⟨fun e => h e.symm, hc⟩, fun hc => hc.2⟩

/-- What the search finds is an occurrence. -/
theorem getElem?_of_indexIn {c : CodePoint} {l : List CodePoint} {i : Nat} (h : indexIn c l = some i) :
    l[i]? = some c := by
  induction l generalizing i with
  | nil => simp [indexIn] at h
  | cons d ds ih =>
    by_cases hd : d = c
    · simp only [indexIn, if_pos hd, Option.some.injEq] at h
      simp [← h, hd]
    · simp only [indexIn, if_neg hd, Option.map_eq_some_iff] at h
      obtain ⟨j, hj, rfl⟩ := h
      simpa using ih hj

/-- In a list without repeats the search finds the one occurrence. -/
theorem indexIn_of_getElem? {c : CodePoint} {l : List CodePoint} {i : Nat} (hl : l.Nodup) (h : l[i]? = some c) :
    indexIn c l = some i := by
  induction l generalizing i with
  | nil => simp at h
  | cons d ds ih =>
    obtain ⟨hd, hds⟩ := List.nodup_cons.mp hl
    cases i with
    | zero => simp_all [indexIn]
    | succ i =>
      have hm : ds[i]? = some c := by simpa using h
      have hne : d ≠ c := fun e => hd (e ▸ List.mem_of_getElem? hm)
      simp [indexIn, hne, ih hds hm]

/-- RomS2I by whether the code point is in the table (R105). -/
theorem romS2I_of_not_mem {A : Alphabet128} {t : Rsel} {c : CodePoint} (h : c ∉ romTable A t) :
    romS2I A t c = if padded t = true ∧ c = padChar then .pad else .unknown := by
  simp only [romS2I, (indexIn_eq_none_iff c _).mpr h]

theorem romS2I_sym {A : Alphabet128} {t : Rsel} {c : CodePoint} {i : Nat} (h : romS2I A t c = .sym i) :
    romI2S A t i = some c := by
  unfold romS2I at h
  split at h
  · rename_i j hj
    cases h
    exact getElem?_of_indexIn hj
  · split at h <;> cases h

/-- The index RomS2I answers is below N. -/
theorem romS2I_sym_lt {A : Alphabet128} {t : Rsel} {c : CodePoint} {i : Nat} (h : romS2I A t c = .sym i) :
    i < 2 ^ width t :=
  alphabetSize_eq_two_pow_width t ▸ (romI2S_some (romS2I_sym h)).1

/-- RomS2I answers PAD only for a padded codec's pad character. -/
theorem romS2I_pad {A : Alphabet128} {t : Rsel} {c : CodePoint} (h : romS2I A t c = .pad) :
    padded t = true ∧ c = padChar := by
  unfold romS2I at h
  split at h
  · cases h
  · split at h
    · assumption
    · cases h

end Sys2Proof.Machine
end

