-- ==== Sys2Proof/Laws/State.lean ====
section
/-! SUPPORT. What each named update of the state does to each field: one lemma per field per update, so that no later proof
unfolds an update. -/

namespace Sys2Proof.Machine

/-! ### `State.setPhase` -/

@[simp] theorem State.setPhase_phase (p : Phase) (s : State) : (s.setPhase p).phase = p := rfl
@[simp] theorem State.setPhase_rsel (p : Phase) (s : State) : (s.setPhase p).rsel = s.rsel := rfl
@[simp] theorem State.setPhase_acc (p : Phase) (s : State) : (s.setPhase p).acc = s.acc := rfl
@[simp] theorem State.setPhase_cnt (p : Phase) (s : State) : (s.setPhase p).cnt = s.cnt := rfl
@[simp] theorem State.setPhase_pos (p : Phase) (s : State) : (s.setPhase p).pos = s.pos := rfl
@[simp] theorem State.setPhase_padf (p : Phase) (s : State) : (s.setPhase p).padf = s.padf := rfl
@[simp] theorem State.setPhase_err (p : Phase) (s : State) : (s.setPhase p).err = s.err := rfl
@[simp] theorem State.setPhase_rom128 (p : Phase) (s : State) : (s.setPhase p).rom128 = s.rom128 := rfl
@[simp] theorem State.setPhase_inputs (p : Phase) (s : State) : (s.setPhase p).inputs = s.inputs := rfl
@[simp] theorem State.setPhase_responses (p : Phase) (s : State) : (s.setPhase p).responses = s.responses := rfl

/-! ### `State.setRsel` -/

@[simp] theorem State.setRsel_phase (r : Rsel) (s : State) : (s.setRsel r).phase = s.phase := rfl
@[simp] theorem State.setRsel_rsel (r : Rsel) (s : State) : (s.setRsel r).rsel = r := rfl
@[simp] theorem State.setRsel_acc (r : Rsel) (s : State) : (s.setRsel r).acc = s.acc := rfl
@[simp] theorem State.setRsel_cnt (r : Rsel) (s : State) : (s.setRsel r).cnt = s.cnt := rfl
@[simp] theorem State.setRsel_pos (r : Rsel) (s : State) : (s.setRsel r).pos = s.pos := rfl
@[simp] theorem State.setRsel_padf (r : Rsel) (s : State) : (s.setRsel r).padf = s.padf := rfl
@[simp] theorem State.setRsel_err (r : Rsel) (s : State) : (s.setRsel r).err = s.err := rfl
@[simp] theorem State.setRsel_rom128 (r : Rsel) (s : State) : (s.setRsel r).rom128 = s.rom128 := rfl
@[simp] theorem State.setRsel_inputs (r : Rsel) (s : State) : (s.setRsel r).inputs = s.inputs := rfl
@[simp] theorem State.setRsel_responses (r : Rsel) (s : State) : (s.setRsel r).responses = s.responses := rfl

/-! ### `State.setReservoir` -/

@[simp] theorem State.setReservoir_phase (t c : Nat) (s : State) : (s.setReservoir t c).phase = s.phase := rfl
@[simp] theorem State.setReservoir_rsel (t c : Nat) (s : State) : (s.setReservoir t c).rsel = s.rsel := rfl
@[simp] theorem State.setReservoir_acc (t c : Nat) (s : State) : (s.setReservoir t c).acc = BitVec.ofNat 7 t := rfl
@[simp] theorem State.setReservoir_cnt (t c : Nat) (s : State) : (s.setReservoir t c).cnt = BitVec.ofNat 3 c := rfl
@[simp] theorem State.setReservoir_pos (t c : Nat) (s : State) : (s.setReservoir t c).pos = s.pos := rfl
@[simp] theorem State.setReservoir_padf (t c : Nat) (s : State) : (s.setReservoir t c).padf = s.padf := rfl
@[simp] theorem State.setReservoir_err (t c : Nat) (s : State) : (s.setReservoir t c).err = s.err := rfl
@[simp] theorem State.setReservoir_rom128 (t c : Nat) (s : State) : (s.setReservoir t c).rom128 = s.rom128 := rfl
@[simp] theorem State.setReservoir_inputs (t c : Nat) (s : State) : (s.setReservoir t c).inputs = s.inputs := rfl
@[simp] theorem State.setReservoir_responses (t c : Nat) (s : State) : (s.setReservoir t c).responses = s.responses := rfl

/-! ### `State.setPos` -/

@[simp] theorem State.setPos_phase (p : Nat) (s : State) : (s.setPos p).phase = s.phase := rfl
@[simp] theorem State.setPos_rsel (p : Nat) (s : State) : (s.setPos p).rsel = s.rsel := rfl
@[simp] theorem State.setPos_acc (p : Nat) (s : State) : (s.setPos p).acc = s.acc := rfl
@[simp] theorem State.setPos_cnt (p : Nat) (s : State) : (s.setPos p).cnt = s.cnt := rfl
@[simp] theorem State.setPos_pos (p : Nat) (s : State) : (s.setPos p).pos = BitVec.ofNat 3 p := rfl
@[simp] theorem State.setPos_padf (p : Nat) (s : State) : (s.setPos p).padf = s.padf := rfl
@[simp] theorem State.setPos_err (p : Nat) (s : State) : (s.setPos p).err = s.err := rfl
@[simp] theorem State.setPos_rom128 (p : Nat) (s : State) : (s.setPos p).rom128 = s.rom128 := rfl
@[simp] theorem State.setPos_inputs (p : Nat) (s : State) : (s.setPos p).inputs = s.inputs := rfl
@[simp] theorem State.setPos_responses (p : Nat) (s : State) : (s.setPos p).responses = s.responses := rfl

/-! ### `State.setPadf` -/

@[simp] theorem State.setPadf_phase (b : Bool) (s : State) : (s.setPadf b).phase = s.phase := rfl
@[simp] theorem State.setPadf_rsel (b : Bool) (s : State) : (s.setPadf b).rsel = s.rsel := rfl
@[simp] theorem State.setPadf_acc (b : Bool) (s : State) : (s.setPadf b).acc = s.acc := rfl
@[simp] theorem State.setPadf_cnt (b : Bool) (s : State) : (s.setPadf b).cnt = s.cnt := rfl
@[simp] theorem State.setPadf_pos (b : Bool) (s : State) : (s.setPadf b).pos = s.pos := rfl
@[simp] theorem State.setPadf_padf (b : Bool) (s : State) : (s.setPadf b).padf = b := rfl
@[simp] theorem State.setPadf_err (b : Bool) (s : State) : (s.setPadf b).err = s.err := rfl
@[simp] theorem State.setPadf_rom128 (b : Bool) (s : State) : (s.setPadf b).rom128 = s.rom128 := rfl
@[simp] theorem State.setPadf_inputs (b : Bool) (s : State) : (s.setPadf b).inputs = s.inputs := rfl
@[simp] theorem State.setPadf_responses (b : Bool) (s : State) : (s.setPadf b).responses = s.responses := rfl

/-! ### `State.advancePos` -/

@[simp] theorem State.advancePos_phase (s : State) : (s.advancePos).phase = s.phase := rfl
@[simp] theorem State.advancePos_rsel (s : State) : (s.advancePos).rsel = s.rsel := rfl
@[simp] theorem State.advancePos_acc (s : State) : (s.advancePos).acc = s.acc := rfl
@[simp] theorem State.advancePos_cnt (s : State) : (s.advancePos).cnt = s.cnt := rfl
@[simp] theorem State.advancePos_pos (s : State) : (s.advancePos).pos = BitVec.ofNat 3 ((s.pos.toNat + 1) % blockSymbols s.rsel) := rfl
@[simp] theorem State.advancePos_padf (s : State) : (s.advancePos).padf = s.padf := rfl
@[simp] theorem State.advancePos_err (s : State) : (s.advancePos).err = s.err := rfl
@[simp] theorem State.advancePos_rom128 (s : State) : (s.advancePos).rom128 = s.rom128 := rfl
@[simp] theorem State.advancePos_inputs (s : State) : (s.advancePos).inputs = s.inputs := rfl
@[simp] theorem State.advancePos_responses (s : State) : (s.advancePos).responses = s.responses := rfl

/-! ### `State.raise` -/

@[simp] theorem State.raise_phase (e : Err) (s : State) : (s.raise e).phase = s.phase := rfl
@[simp] theorem State.raise_rsel (e : Err) (s : State) : (s.raise e).rsel = s.rsel := rfl
@[simp] theorem State.raise_acc (e : Err) (s : State) : (s.raise e).acc = s.acc := rfl
@[simp] theorem State.raise_cnt (e : Err) (s : State) : (s.raise e).cnt = s.cnt := rfl
@[simp] theorem State.raise_pos (e : Err) (s : State) : (s.raise e).pos = s.pos := rfl
@[simp] theorem State.raise_padf (e : Err) (s : State) : (s.raise e).padf = s.padf := rfl
@[simp] theorem State.raise_err (e : Err) (s : State) : (s.raise e).err = e := rfl
@[simp] theorem State.raise_rom128 (e : Err) (s : State) : (s.raise e).rom128 = s.rom128 := rfl
@[simp] theorem State.raise_inputs (e : Err) (s : State) : (s.raise e).inputs = s.inputs := rfl
@[simp] theorem State.raise_responses (e : Err) (s : State) : (s.raise e).responses = s.responses := rfl

/-! ### `State.clearConversion` -/

@[simp] theorem State.clearConversion_phase (s : State) : (s.clearConversion).phase = s.phase := rfl
@[simp] theorem State.clearConversion_rsel (s : State) : (s.clearConversion).rsel = s.rsel := rfl
@[simp] theorem State.clearConversion_acc (s : State) : (s.clearConversion).acc = 0 := rfl
@[simp] theorem State.clearConversion_cnt (s : State) : (s.clearConversion).cnt = 0 := rfl
@[simp] theorem State.clearConversion_pos (s : State) : (s.clearConversion).pos = 0 := rfl
@[simp] theorem State.clearConversion_padf (s : State) : (s.clearConversion).padf = false := rfl
@[simp] theorem State.clearConversion_err (s : State) : (s.clearConversion).err = .noError := rfl
@[simp] theorem State.clearConversion_rom128 (s : State) : (s.clearConversion).rom128 = s.rom128 := rfl
@[simp] theorem State.clearConversion_inputs (s : State) : (s.clearConversion).inputs = s.inputs := rfl
@[simp] theorem State.clearConversion_responses (s : State) : (s.clearConversion).responses = s.responses := rfl

/-! ### `State.respond` -/

@[simp] theorem State.respond_phase (st : Status) (ds : List Datum) (s : State) : (s.respond st ds).phase = s.phase := rfl
@[simp] theorem State.respond_rsel (st : Status) (ds : List Datum) (s : State) : (s.respond st ds).rsel = s.rsel := rfl
@[simp] theorem State.respond_acc (st : Status) (ds : List Datum) (s : State) : (s.respond st ds).acc = s.acc := rfl
@[simp] theorem State.respond_cnt (st : Status) (ds : List Datum) (s : State) : (s.respond st ds).cnt = s.cnt := rfl
@[simp] theorem State.respond_pos (st : Status) (ds : List Datum) (s : State) : (s.respond st ds).pos = s.pos := rfl
@[simp] theorem State.respond_padf (st : Status) (ds : List Datum) (s : State) : (s.respond st ds).padf = s.padf := rfl
@[simp] theorem State.respond_err (st : Status) (ds : List Datum) (s : State) : (s.respond st ds).err = s.err := rfl
@[simp] theorem State.respond_rom128 (st : Status) (ds : List Datum) (s : State) : (s.respond st ds).rom128 = s.rom128 := rfl
@[simp] theorem State.respond_inputs (st : Status) (ds : List Datum) (s : State) : (s.respond st ds).inputs = s.inputs := rfl
@[simp] theorem State.respond_responses (st : Status) (ds : List Datum) (s : State) : (s.respond st ds).responses = s.responses ++ [{ status := st, phase := s.phase, data := ds }] := rfl

/-! ### `State.rejectCommand` -/

@[simp] theorem State.rejectCommand_phase (s : State) : (s.rejectCommand).phase = s.phase := rfl
@[simp] theorem State.rejectCommand_rsel (s : State) : (s.rejectCommand).rsel = s.rsel := rfl
@[simp] theorem State.rejectCommand_acc (s : State) : (s.rejectCommand).acc = s.acc := rfl
@[simp] theorem State.rejectCommand_cnt (s : State) : (s.rejectCommand).cnt = s.cnt := rfl
@[simp] theorem State.rejectCommand_pos (s : State) : (s.rejectCommand).pos = s.pos := rfl
@[simp] theorem State.rejectCommand_padf (s : State) : (s.rejectCommand).padf = s.padf := rfl
@[simp] theorem State.rejectCommand_err (s : State) : (s.rejectCommand).err = s.err := rfl
@[simp] theorem State.rejectCommand_rom128 (s : State) : (s.rejectCommand).rom128 = s.rom128 := rfl
@[simp] theorem State.rejectCommand_inputs (s : State) : (s.rejectCommand).inputs = s.inputs := rfl
@[simp] theorem State.rejectCommand_responses (s : State) : (s.rejectCommand).responses = s.responses ++ [{ status := .illegalCommand, phase := s.phase, data := [] }] := rfl

/-! ### `State.failWith` -/

@[simp] theorem State.failWith_phase (e : Err) (s : State) : (s.failWith e).phase = s.phase := rfl
@[simp] theorem State.failWith_rsel (e : Err) (s : State) : (s.failWith e).rsel = s.rsel := rfl
@[simp] theorem State.failWith_acc (e : Err) (s : State) : (s.failWith e).acc = s.acc := rfl
@[simp] theorem State.failWith_cnt (e : Err) (s : State) : (s.failWith e).cnt = s.cnt := rfl
@[simp] theorem State.failWith_pos (e : Err) (s : State) : (s.failWith e).pos = s.pos := rfl
@[simp] theorem State.failWith_padf (e : Err) (s : State) : (s.failWith e).padf = s.padf := rfl
@[simp] theorem State.failWith_err (e : Err) (s : State) : (s.failWith e).err = e := rfl
@[simp] theorem State.failWith_rom128 (e : Err) (s : State) : (s.failWith e).rom128 = s.rom128 := rfl
@[simp] theorem State.failWith_inputs (e : Err) (s : State) : (s.failWith e).inputs = s.inputs := rfl
@[simp] theorem State.failWith_responses (e : Err) (s : State) : (s.failWith e).responses = s.responses ++ [{ status := errStatus e, phase := s.phase, data := [] }] := rfl

/-! ### `State.resetEvent` -/

@[simp] theorem State.resetEvent_phase (s : State) : (s.resetEvent).phase = .idle := rfl
@[simp] theorem State.resetEvent_rsel (s : State) : (s.resetEvent).rsel = .radix64 := rfl
@[simp] theorem State.resetEvent_acc (s : State) : (s.resetEvent).acc = 0 := rfl
@[simp] theorem State.resetEvent_cnt (s : State) : (s.resetEvent).cnt = 0 := rfl
@[simp] theorem State.resetEvent_pos (s : State) : (s.resetEvent).pos = 0 := rfl
@[simp] theorem State.resetEvent_padf (s : State) : (s.resetEvent).padf = false := rfl
@[simp] theorem State.resetEvent_err (s : State) : (s.resetEvent).err = .noError := rfl
@[simp] theorem State.resetEvent_rom128 (s : State) : (s.resetEvent).rom128 = s.rom128 := rfl
@[simp] theorem State.resetEvent_inputs (s : State) : (s.resetEvent).inputs = s.inputs := rfl
@[simp] theorem State.resetEvent_responses (s : State) : (s.resetEvent).responses = s.responses := rfl

/-! ### `State.present` -/

@[simp] theorem State.present_phase (w : Word) (s : State) : (s.present w).phase = s.phase := rfl
@[simp] theorem State.present_rsel (w : Word) (s : State) : (s.present w).rsel = s.rsel := rfl
@[simp] theorem State.present_acc (w : Word) (s : State) : (s.present w).acc = s.acc := rfl
@[simp] theorem State.present_cnt (w : Word) (s : State) : (s.present w).cnt = s.cnt := rfl
@[simp] theorem State.present_pos (w : Word) (s : State) : (s.present w).pos = s.pos := rfl
@[simp] theorem State.present_padf (w : Word) (s : State) : (s.present w).padf = s.padf := rfl
@[simp] theorem State.present_err (w : Word) (s : State) : (s.present w).err = s.err := rfl
@[simp] theorem State.present_rom128 (w : Word) (s : State) : (s.present w).rom128 = s.rom128 := rfl
@[simp] theorem State.present_inputs (w : Word) (s : State) : (s.present w).inputs = .command w :: s.inputs := rfl
@[simp] theorem State.present_responses (w : Word) (s : State) : (s.present w).responses = s.responses := rfl

/-! ### The updates that are no method of the state: `acceptPad`, `closeConversion` -/

@[simp] theorem acceptPad_phase (s : State) : (acceptPad s).phase = s.phase := rfl
@[simp] theorem acceptPad_rsel (s : State) : (acceptPad s).rsel = s.rsel := rfl
@[simp] theorem acceptPad_acc (s : State) : (acceptPad s).acc = s.acc := rfl
@[simp] theorem acceptPad_cnt (s : State) : (acceptPad s).cnt = s.cnt := rfl
@[simp] theorem acceptPad_pos (s : State) : (acceptPad s).pos = BitVec.ofNat 3 ((s.pos.toNat + 1) % blockSymbols s.rsel) := rfl
@[simp] theorem acceptPad_padf (s : State) : (acceptPad s).padf = true := rfl
@[simp] theorem acceptPad_err (s : State) : (acceptPad s).err = s.err := rfl
@[simp] theorem acceptPad_rom128 (s : State) : (acceptPad s).rom128 = s.rom128 := rfl
@[simp] theorem acceptPad_inputs (s : State) : (acceptPad s).inputs = s.inputs := rfl
@[simp] theorem acceptPad_responses (s : State) : (acceptPad s).responses = s.responses := rfl

@[simp] theorem closeConversion_phase (st : Status) (ds : List Datum) (s : State) :
    (closeConversion st ds s).phase = .idle := rfl
@[simp] theorem closeConversion_rsel (st : Status) (ds : List Datum) (s : State) :
    (closeConversion st ds s).rsel = s.rsel := rfl
@[simp] theorem closeConversion_acc (st : Status) (ds : List Datum) (s : State) :
    (closeConversion st ds s).acc = 0 := rfl
@[simp] theorem closeConversion_cnt (st : Status) (ds : List Datum) (s : State) :
    (closeConversion st ds s).cnt = 0 := rfl
@[simp] theorem closeConversion_pos (st : Status) (ds : List Datum) (s : State) :
    (closeConversion st ds s).pos = 0 := rfl
@[simp] theorem closeConversion_padf (st : Status) (ds : List Datum) (s : State) :
    (closeConversion st ds s).padf = false := rfl
@[simp] theorem closeConversion_err (st : Status) (ds : List Datum) (s : State) :
    (closeConversion st ds s).err = .noError := rfl
@[simp] theorem closeConversion_rom128 (st : Status) (ds : List Datum) (s : State) :
    (closeConversion st ds s).rom128 = s.rom128 := rfl
@[simp] theorem closeConversion_inputs (st : Status) (ds : List Datum) (s : State) :
    (closeConversion st ds s).inputs = s.inputs := rfl
@[simp] theorem closeConversion_responses (st : Status) (ds : List Datum) (s : State) :
    (closeConversion st ds s).responses = s.responses ++ [{ status := st, phase := .idle, data := ds }] := rfl

end Sys2Proof.Machine
end

