-- ==== Sys2Proof/Laws/Ops.lean ====
section
/-! SUPPORT. One lemma for each shared operation that says everything it can do: emission, the reservoir operations, the padding
checks. Later proofs cite these and do not unfold the operations. -/

namespace Sys2Proof.Machine

/-! ### Emission -/

/-- Emitting changes POS alone. -/
theorem emitIndices_frame {is : List Nat} {s s' : State} {ds : List Datum} (h : emitIndices is s = some (ds, s')) :
    ∃ p, s' = s.setPos p := by
  induction is generalizing s ds s' with
  | nil =>
    simp only [emitIndices, Option.some.injEq, Prod.mk.injEq] at h
    exact ⟨s.pos.toNat, by rw [← h.2]; simp [State.setPos]⟩
  | cons i is ih =>
    simp only [emitIndices] at h
    split at h
    · cases h
    · split at h
      · cases h
      · rename_i ds' t ht
        simp only [Option.some.injEq, Prod.mk.injEq] at h
        obtain ⟨p, hp⟩ := ih ht
        exact ⟨p, by rw [← h.2, hp]; rfl⟩

/-- `POS <- (POS + 1) mod S` read back. -/
theorem advancePos_toNat (s : State) : s.advancePos.pos.toNat = (s.pos.toNat + 1) % blockSymbols s.rsel := by
  simpa using Nat.mod_eq_of_lt (succ_mod_blockSymbols_lt_eight s.pos.toNat s.rsel)

/-- From a POS inside the block, emitting advances POS once for each index, modulo S. -/
theorem emitIndices_pos {is : List Nat} {s s' : State} {ds : List Datum} (h : emitIndices is s = some (ds, s'))
    (hp : s.pos.toNat < blockSymbols s.rsel) :
    s' = s.setPos ((s.pos.toNat + is.length) % blockSymbols s.rsel) := by
  induction is generalizing s ds s' with
  | nil =>
    simp only [emitIndices, Option.some.injEq, Prod.mk.injEq] at h
    rw [← h.2]
    ext1 <;> simp [Nat.mod_eq_of_lt hp]
  | cons i is ih =>
    simp only [emitIndices] at h
    split at h
    · cases h
    · split at h
      · cases h
      · rename_i ds' t ht
        simp only [Option.some.injEq, Prod.mk.injEq] at h
        have hlt : s.advancePos.pos.toNat < blockSymbols s.advancePos.rsel := by
          rw [advancePos_toNat]; exact Nat.mod_lt _ (blockSymbols_pos _)
        rw [← h.2, ih ht hlt, advancePos_toNat, State.advancePos_rsel, Nat.mod_add_mod, List.length_cons,
          Nat.add_assoc, Nat.add_comm 1]
        rfl

/-- One value is emitted for each index. -/
theorem emitIndices_length {is : List Nat} {s s' : State} {ds : List Datum} (h : emitIndices is s = some (ds, s')) :
    ds.length = is.length := by
  induction is generalizing s ds s' with
  | nil =>
    simp only [emitIndices, Option.some.injEq, Prod.mk.injEq] at h
    simp [← h.1]
  | cons i is ih =>
    simp only [emitIndices] at h
    split at h
    · cases h
    · split at h
      · cases h
      · rename_i ds' t ht
        simp only [Option.some.injEq, Prod.mk.injEq] at h
        simp [← h.1, ih ht]

/-- Every emitted value is an entry of the selected table. -/
theorem emitIndices_mem {is : List Nat} {s s' : State} {ds : List Datum} (h : emitIndices is s = some (ds, s')) :
    ∀ d ∈ ds, ∃ c, d = .symbol c ∧ c ∈ romTable s.rom128 s.rsel := by
  induction is generalizing s ds s' with
  | nil =>
    simp only [emitIndices, Option.some.injEq, Prod.mk.injEq] at h
    simp [← h.1]
  | cons i is ih =>
    simp only [emitIndices] at h
    split at h
    · cases h
    · rename_i c hc
      split at h
      · cases h
      · rename_i ds' t ht
        simp only [Option.some.injEq, Prod.mk.injEq] at h
        intro d hd
        rw [← h.1] at hd
        rcases List.mem_cons.mp hd with rfl | hd
        · exact ⟨c, rfl, (romI2S_some hc).2⟩
        · exact ih ht d hd

/-- Emission answers when every index is below N. -/
theorem emitIndices_of_lt {is : List Nat} (s : State) (h : ∀ i ∈ is, i < alphabetSize s.rsel) :
    ∃ ds s', emitIndices is s = some (ds, s') := by
  induction is generalizing s with
  | nil => exact ⟨[], s, rfl⟩
  | cons i is ih =>
    obtain ⟨c, hc⟩ := romI2S_of_lt s.rom128 s.rsel (h i (by simp))
    obtain ⟨ds, s', ht⟩ := ih s.advancePos fun j hj => h j (by simp [hj])
    exact ⟨.symbol c :: ds, s', by simp [emitIndices, hc, ht]⟩

/-! ### The reservoir -/

/-- The three rounds of PackByte are enough in every state: fewer than W bits are left. -/
theorem packLoop_leaves_less_than_width (r : Rsel) (t : Nat) {c : Nat} (h : c ≤ 15) :
    (packLoop (width r) 3 t c).2.2 < width r := by
  have := width_ge_four r
  simp only [packLoop]
  split
  · split
    · split <;> simp only <;> omega
    · simp only; omega
  · simp only; omega

/-- The oldest `w` of `c` bits are a number below 2^w, and what is left is a number of the rest. -/
theorem top_bits_lt {t c w : Nat} (hw : w ≤ c) (h : t < 2 ^ c) : t >>> (c - w) < 2 ^ w := by
  rw [Nat.shiftRight_eq_div_pow, Nat.div_lt_iff_lt_mul (Nat.two_pow_pos _), ← Nat.pow_add]
  rwa [show w + (c - w) = c by omega]

/-- The loop of PackByte takes indices below 2^W and leaves a number of the bits it says are left. -/
theorem packLoop_bounds (w : Nat) : ∀ (rounds t c : Nat), t < 2 ^ c →
    (∀ i ∈ (packLoop w rounds t c).1, i < 2 ^ w) ∧ (packLoop w rounds t c).2.1 < 2 ^ (packLoop w rounds t c).2.2
  | 0, t, c, h => by simpa [packLoop] using h
  | rounds + 1, t, c, h => by
    by_cases hw : w ≤ c
    · obtain ⟨h1, h2⟩ := packLoop_bounds w rounds (t % 2 ^ (c - w)) (c - w) (Nat.mod_lt _ (Nat.two_pow_pos _))
      simp only [packLoop, if_pos hw]
      refine ⟨fun i hi => ?_, h2⟩
      rcases List.mem_cons.mp hi with rfl | hi
      · exact top_bits_lt hw h
      · exact h1 i hi
    · simpa [packLoop, hw] using h

/-- PackByte's loop in numbers: the indices in base 2^W and then the bits left are the value it began with, so no bit is lost and
the oldest come first (R44, R80). -/
theorem packLoop_value (w : Nat) : ∀ (rounds t c : Nat),
    ((packLoop w rounds t c).1.foldl (fun a i => a * 2 ^ w + i) 0) * 2 ^ (packLoop w rounds t c).2.2
      + (packLoop w rounds t c).2.1 = t ∧
    (packLoop w rounds t c).1.length * w + (packLoop w rounds t c).2.2 = c := by
  have fold_from : ∀ (l : List Nat) (a : Nat),
      l.foldl (fun a i => a * 2 ^ w + i) a = a * 2 ^ (l.length * w) + l.foldl (fun a i => a * 2 ^ w + i) 0 := by
    intro l
    induction l with
    | nil => simp
    | cons i l ih =>
      intro a
      simp only [List.foldl_cons, List.length_cons]
      rw [ih (a * 2 ^ w + i), ih (0 * 2 ^ w + i)]
      ring
  intro rounds
  induction rounds with
  | zero => intro t c; simp [packLoop]
  | succ rounds ih =>
    intro t c
    by_cases hw : w ≤ c
    · obtain ⟨h1, h2⟩ := ih (t % 2 ^ (c - w)) (c - w)
      simp only [packLoop, if_pos hw, List.foldl_cons, List.length_cons, Nat.zero_mul, Nat.zero_add]
      refine ⟨?_, by rw [Nat.add_mul, Nat.one_mul]; omega⟩
      rw [fold_from, Nat.add_mul, Nat.mul_assoc, ← Nat.pow_add, h2, Nat.add_assoc, h1,
        Nat.shiftRight_eq_div_pow]
      exact Nat.div_add_mod' t _
    · simp [packLoop, hw]

/-- Everything PackByte can do: it writes ACC and CNT alone, by its loop on the bits held and the byte's. -/
theorem packByte_eq (b : Byte) (s : State) :
    packByte b s =
      ((packLoop (width s.rsel) 3 (s.acc.toNat * 256 + b.toNat) (s.cnt.toNat + 8)).1,
       s.setReservoir (packLoop (width s.rsel) 3 (s.acc.toNat * 256 + b.toNat) (s.cnt.toNat + 8)).2.1
         (packLoop (width s.rsel) 3 (s.acc.toNat * 256 + b.toNat) (s.cnt.toNat + 8)).2.2) := by
  simp [packByte, Nat.shiftLeft_eq]

/-- With CNT bits held, PackByte's indices are below N. -/
theorem packByte_lt {b : Byte} {s : State} (h : s.acc.toNat < 2 ^ s.cnt.toNat) :
    ∀ i ∈ (packByte b s).1, i < alphabetSize s.rsel := by
  have hb := b.isLt
  have ht : s.acc.toNat * 256 + b.toNat < 2 ^ (s.cnt.toNat + 8) := by
    rw [Nat.pow_add]; omega
  rw [packByte_eq, alphabetSize_eq_two_pow_width]
  exact (packLoop_bounds _ 3 _ _ ht).1

/-- After PackByte the reservoir holds the bits it says it holds, fewer than W (R81, R82). -/
theorem packByte_reservoir {b : Byte} {s : State} (h : s.acc.toNat < 2 ^ s.cnt.toNat) :
    (packByte b s).2.acc.toNat < 2 ^ (packByte b s).2.cnt.toNat ∧ (packByte b s).2.cnt.toNat < width s.rsel := by
  have hb := b.isLt
  have hc := s.cnt.isLt
  have ht : s.acc.toNat * 256 + b.toNat < 2 ^ (s.cnt.toNat + 8) := by
    rw [Nat.pow_add]; omega
  have h1 := (packLoop_bounds (width s.rsel) 3 _ _ ht).2
  have h2 := packLoop_leaves_less_than_width s.rsel (s.acc.toNat * 256 + b.toNat) (c := s.cnt.toNat + 8) (by omega)
  have h3 := width_le_seven s.rsel
  rw [packByte_eq]
  simp only [State.setReservoir_acc, State.setReservoir_cnt, BitVec.toNat_ofNat]
  rw [Nat.mod_eq_of_lt (by omega : _ < 2 ^ 3)]
  refine ⟨Nat.lt_of_le_of_lt (Nat.mod_le _ _) h1, h2⟩

/-- Everything PackTail can do (R83). -/
theorem packTail_cases (s : State) :
    (s.cnt.toNat = 0 ∧ packTail s = ([], s)) ∨
    (s.cnt.toNat ≠ 0 ∧
      packTail s = ([s.acc.toNat * 2 ^ (width s.rsel - s.cnt.toNat)], s.setReservoir 0 0)) := by
  by_cases h : s.cnt.toNat = 0
  · exact .inl ⟨h, by simp [packTail, h]⟩
  · exact .inr ⟨h, by simp [packTail, h, Nat.shiftLeft_eq]⟩

/-- With CNT bits held, fewer than W, PackTail's index is below N. -/
theorem packTail_lt {s : State} (h : s.acc.toNat < 2 ^ s.cnt.toNat) (hc : s.cnt.toNat < width s.rsel) :
    ∀ i ∈ (packTail s).1, i < alphabetSize s.rsel := by
  rcases packTail_cases s with ⟨-, e⟩ | ⟨-, e⟩ <;> rw [e]
  · simp
  · intro i hi
    rw [List.mem_singleton.mp hi, alphabetSize_eq_two_pow_width]
    calc s.acc.toNat * 2 ^ (width s.rsel - s.cnt.toNat)
        < 2 ^ s.cnt.toNat * 2 ^ (width s.rsel - s.cnt.toNat) := Nat.mul_lt_mul_of_pos_right h (Nat.two_pow_pos _)
      _ = 2 ^ width s.rsel := by rw [← Nat.pow_add]; congr 1; omega

/-- PackTail leaves PHASE, RSEL, POS, PADF, ERR, the ROM and the ports. -/
theorem packTail_frame (s : State) :
    (packTail s).2.phase = s.phase ∧ (packTail s).2.rsel = s.rsel ∧ (packTail s).2.pos = s.pos ∧
      (packTail s).2.padf = s.padf ∧ (packTail s).2.err = s.err ∧ (packTail s).2.rom128 = s.rom128 ∧
      (packTail s).2.inputs = s.inputs ∧ (packTail s).2.responses = s.responses := by
  rcases packTail_cases s with ⟨-, e⟩ | ⟨-, e⟩ <;> simp [e]

/-- Everything UnpackIndex can do (R85): no byte while fewer than 8 bits are there, else the oldest 8. -/
theorem unpackIndex_cases (i : Nat) (s : State) :
    (s.cnt.toNat + width s.rsel < 8 ∧
      unpackIndex i s = ([], s.setReservoir (s.acc.toNat * 2 ^ width s.rsel + i) (s.cnt.toNat + width s.rsel))) ∨
    (8 ≤ s.cnt.toNat + width s.rsel ∧
      unpackIndex i s =
        ([BitVec.ofNat 8 ((s.acc.toNat * 2 ^ width s.rsel + i) / 2 ^ (s.cnt.toNat + width s.rsel - 8))],
         s.setReservoir ((s.acc.toNat * 2 ^ width s.rsel + i) % 2 ^ (s.cnt.toNat + width s.rsel - 8))
           (s.cnt.toNat + width s.rsel - 8))) := by
  by_cases h : 8 ≤ s.cnt.toNat + width s.rsel
  · exact .inr ⟨h, by simp [unpackIndex, h, Nat.shiftLeft_eq, Nat.shiftRight_eq_div_pow]⟩
  · exact .inl ⟨by omega, by simp [unpackIndex, h, Nat.shiftLeft_eq]⟩

/-- Appending an index's W bits to CNT bits gives CNT + W bits. -/
theorem append_index_lt {s : State} {i : Nat} (h : s.acc.toNat < 2 ^ s.cnt.toNat) (hi : i < 2 ^ width s.rsel) :
    s.acc.toNat * 2 ^ width s.rsel + i < 2 ^ (s.cnt.toNat + width s.rsel) := by
  rw [Nat.pow_add]
  calc s.acc.toNat * 2 ^ width s.rsel + i < (s.acc.toNat + 1) * 2 ^ width s.rsel := by
        rw [Nat.add_mul, Nat.one_mul]; exact Nat.add_lt_add_left hi _
    _ ≤ 2 ^ s.cnt.toNat * 2 ^ width s.rsel := Nat.mul_le_mul_right _ h

/-- After UnpackIndex the reservoir holds the bits it says it holds (R85, R86). -/
theorem unpackIndex_reservoir {s : State} {i : Nat} (h : s.acc.toNat < 2 ^ s.cnt.toNat) (hi : i < 2 ^ width s.rsel) :
    (unpackIndex i s).2.acc.toNat < 2 ^ (unpackIndex i s).2.cnt.toNat ∧
      (unpackIndex i s).2.cnt.toNat = (s.cnt.toNat + width s.rsel) % 8 := by
  have hc := s.cnt.isLt
  have hw := width_le_seven s.rsel
  have ht := append_index_lt h hi
  rcases unpackIndex_cases i s with ⟨hlt, e⟩ | ⟨hge, e⟩ <;>
    simp only [e, State.setReservoir_acc, State.setReservoir_cnt, BitVec.toNat_ofNat]
  · rw [Nat.mod_eq_of_lt (show s.cnt.toNat + width s.rsel < 2 ^ 3 by omega)]
    exact ⟨Nat.lt_of_le_of_lt (Nat.mod_le _ _) ht, trivial⟩
  · rw [Nat.mod_eq_of_lt (show s.cnt.toNat + width s.rsel - 8 < 2 ^ 3 by omega)]
    exact ⟨Nat.lt_of_le_of_lt (Nat.mod_le _ _) (Nat.mod_lt _ (Nat.two_pow_pos _)), by omega⟩

/-! ### The padding checks -/

/-- PadOut emits only pads, and only for a padded codec (R121). -/
theorem padOut_mem (s : State) : ∀ d ∈ (padOut s).1, padded s.rsel = true ∧ d = .symbol padChar := by
  intro d hd
  unfold padOut at hd
  split at hd
  · exact ⟨‹_›, (List.mem_replicate.mp hd).2⟩
  · simp at hd

/-- PadOut emits fewer pads than a block has symbols. -/
theorem padOut_length (s : State) : (padOut s).1.length < blockSymbols s.rsel := by
  unfold padOut
  split
  · exact List.length_replicate ▸ Nat.mod_lt _ (blockSymbols_pos s.rsel)
  · exact blockSymbols_pos s.rsel

/-- Everything DecodeEnd can do (R125). -/
theorem decodeEnd_cases (s : State) :
    (s.padf = true ∧ s.pos.toNat ≠ 0 ∧ decodeEnd s = s.raise .malformedPadding) ∨
    (s.padf = false ∧ s.pos.toNat ∉ validEnd s.rsel ∧ decodeEnd s = s.raise .malformedLength) ∨
    ((s.padf = true → s.pos.toNat = 0) ∧ (s.padf = false → s.pos.toNat ∈ validEnd s.rsel) ∧ decodeEnd s = s) := by
  unfold decodeEnd
  by_cases hp : s.padf = true
  · rw [if_pos hp]
    by_cases h : s.pos.toNat = 0
    · exact .inr (.inr ⟨fun _ => h, fun hf => by simp [hf] at hp, if_neg (by simpa using h)⟩)
    · exact .inl ⟨hp, h, if_pos h⟩
  · rw [if_neg hp]
    have hf : s.padf = false := by simpa using hp
    by_cases h : s.pos.toNat ∈ validEnd s.rsel
    · exact .inr (.inr ⟨fun ht => absurd ht hp, fun _ => h, if_pos (by simpa using h)⟩)
    · exact .inr (.inl ⟨hf, h, if_neg (by simpa using h)⟩)

/-- Everything UnpackEnd can do (R87). -/
theorem unpackEnd_cases (s : State) :
    (s.acc.toNat ≠ 0 ∧ unpackEnd s = s.raise .nonZeroTrailingBits) ∨ (s.acc.toNat = 0 ∧ unpackEnd s = s) := by
  by_cases h : s.acc.toNat = 0
  · exact .inr ⟨h, by simp [unpackEnd, h]⟩
  · exact .inl ⟨h, by simp only [unpackEnd, if_pos h]⟩

/-- The checks of FIN in DEC write ERR alone. -/
theorem decodeChecks_frame (s : State) : ∃ e, decodeChecks s = s.raise e := by
  have keep : s = s.raise s.err := rfl
  unfold decodeChecks
  simp only
  by_cases h : s.err = .noError
  · rw [if_pos h]
    rcases decodeEnd_cases s with ⟨-, -, e⟩ | ⟨-, -, e⟩ | ⟨-, -, e⟩ <;> rw [e]
    · exact ⟨_, if_neg (by simp)⟩
    · exact ⟨_, if_neg (by simp)⟩
    · rw [if_pos h]
      rcases unpackEnd_cases s with ⟨-, e'⟩ | ⟨-, e'⟩ <;> rw [e']
      · exact ⟨_, rfl⟩
      · exact ⟨_, keep⟩
  · rw [if_neg h, if_neg h]
    exact ⟨_, keep⟩

end Sys2Proof.Machine
end

