-- ==== Sys2Proof/Laws/PerInstr.lean ====
section
/-! SUPPORT. Facts about every command, one lemma per constructor. The family `EncodedWord`: a command is well-formed and its word is a
legal one (`30_encoding.md` R61 to R64, R66). -/

namespace Sys2Proof

/-- Nothing ill-formed can be written: the operands' types are their fields (R66). -/
theorem Instr.wf_eq_true (i : Instr) : i.wf = true := by
  cases i with
  | cfg d r => rfl
  | putb b => exact decide_eq_true b.isLt
  | puts c => exact decide_eq_true c.isLt
  | fin => rfl

end Sys2Proof

namespace Sys2Proof.Laws.EncodedWord

/-- The command is well-formed, and its word has a row's fixed bits. -/
def Statement (i : Instr) : Prop := i.wf = true ∧ wordWf (encode i) = true

theorem cfg (d : Dir) (r : Rsel) : Statement (.cfg d r) := by
  cases d <;> cases r <;> exact ⟨rfl, by decide⟩

theorem putb (b : Byte) : Statement (.putb b) := by
  refine ⟨Instr.wf_eq_true _, ?_⟩
  revert b
  decide +kernel

/-- The bits of a PUTS word under its mask do not depend on the symbol. -/
theorem puts_masked (c : CodePoint) : encode (.puts c) &&& 0xFFE00000#32 = 0x30000000#32 := by
  apply BitVec.eq_of_getLsbD_eq
  intro i hi
  simp only [encode, BitVec.getLsbD_and, BitVec.getLsbD_append]
  by_cases h : i < 21
  · have : (0xFFE00000#32).getLsbD i = false := by
      clear hi
      revert i
      decide
    have h2 : (0x30000000#32).getLsbD i = false := by
      clear hi this
      revert i
      decide
    rw [this, h2, Bool.and_false]
  · simp only [if_neg h]
    obtain ⟨j, rfl⟩ : ∃ j, i = 21 + j := ⟨i - 21, by omega⟩
    have hj : j < 11 := by omega
    clear h hi
    revert j
    decide

theorem puts (c : CodePoint) : Statement (.puts c) :=
  ⟨Instr.wf_eq_true _, by simp [wordWf, opcodeRows, OpcodeRow.holds, puts_masked]⟩

theorem fin : Statement .fin := ⟨rfl, by decide⟩

end Sys2Proof.Laws.EncodedWord
end

