-- ==== Sys2Proof/Laws/Step.lean ====
section
/-! SUPPORT. What each command and the step can do: one inversion lemma each. A claim over every step starts from `step_cases` and
cites the lemma of the command at hand. -/

namespace Sys2Proof.Machine

/-- A next state of the step comes about in four ways: the block waits, it is reset, it executes a command, or it rejects a word. -/
theorem step_cases {s t : State} (h : step s = .next t) :
    (s.inputs = [] ∧ t = s) ∨
    (∃ xs, s.inputs = .reset :: xs ∧ t = ({ s with inputs := xs } : State).resetEvent) ∨
    (∃ w xs i, s.inputs = .command w :: xs ∧ decode w = .ok i ∧ exec i { s with inputs := xs } = .next t) ∨
    (∃ w xs e, s.inputs = .command w :: xs ∧ decode w = .error e ∧
      t = ({ s with inputs := xs } : State).rejectCommand) := by
  unfold step takeInput at h
  cases hin : s.inputs with
  | nil =>
    simp only [hin, Host.Outcome.next.injEq] at h
    exact .inl ⟨rfl, h.symm⟩
  | cons x xs =>
    cases x with
    | reset =>
      simp only [hin, Host.Outcome.next.injEq] at h
      exact .inr (.inl ⟨xs, rfl, h.symm⟩)
    | command w =>
      simp only [hin] at h
      cases hd : decode w with
      | ok i =>
        simp only [hd] at h
        exact .inr (.inr (.inl ⟨w, xs, i, rfl, hd, h⟩))
      | error e =>
        simp only [hd, Host.Outcome.next.injEq] at h
        exact .inr (.inr (.inr ⟨w, xs, e, rfl, hd, h.symm⟩))

/-- What PUTB can do (R152, R155). -/
theorem execPutb_cases {b : Byte} {s t : State} (h : execPutb b s = .next t) :
    (s.phase ≠ .enc ∧ t = s.rejectCommand) ∨
    (s.phase = .enc ∧ ∃ ds s1, emitIndices (packByte b s).1 (packByte b s).2 = some (ds, s1) ∧ t = s1.respond .ok ds) := by
  unfold execPutb encodeByte at h
  cases hp : s.phase with
  | idle => simp only [hp, Host.Outcome.next.injEq] at h; exact .inl ⟨by simp, h.symm⟩
  | dec => simp only [hp, Host.Outcome.next.injEq] at h; exact .inl ⟨by simp, h.symm⟩
  | enc =>
    simp only [hp] at h
    split at h
    · cases h
    · rename_i ds s1 he
      simp only [Host.Outcome.next.injEq] at h
      exact .inr ⟨rfl, ds, s1, he, h.symm⟩

/-- What a symbol does in DEC (R153, in the order of R188). -/
theorem decodeSymbol_cases (c : CodePoint) (s : State) :
    (s.err ≠ .noError ∧ decodeSymbol c s = s.respond (errStatus s.err) []) ∨
    (s.err = .noError ∧ romS2I s.rom128 s.rsel c = .unknown ∧ decodeSymbol c s = s.failWith .invalidSymbol) ∨
    (s.err = .noError ∧ romS2I s.rom128 s.rsel c = .pad ∧ padInRefuses s = true ∧
      decodeSymbol c s = s.failWith .malformedPadding) ∨
    (s.err = .noError ∧ romS2I s.rom128 s.rsel c = .pad ∧ padInRefuses s = false ∧
      decodeSymbol c s = (acceptPad s).respond .ok []) ∨
    (∃ i, s.err = .noError ∧ romS2I s.rom128 s.rsel c = .sym i ∧ s.padf = true ∧
      decodeSymbol c s = s.failWith .malformedPadding) ∨
    (∃ i, s.err = .noError ∧ romS2I s.rom128 s.rsel c = .sym i ∧ s.padf = false ∧
      decodeSymbol c s = (unpackIndex i s).2.advancePos.respond .ok ((unpackIndex i s).1.map .byte)) := by
  unfold decodeSymbol decodePad decodeIndex
  by_cases he : s.err = .noError
  · cases hr : romS2I s.rom128 s.rsel c with
    | unknown => simp [he]
    | pad => cases hp : padInRefuses s <;> simp [he]
    | sym i => cases hp : s.padf <;> simp [he]
  · simp [he]

/-- What PUTS can do (R153, R155). -/
theorem execPuts_cases {c : CodePoint} {s t : State} (h : execPuts c s = .next t) :
    (s.phase ≠ .dec ∧ t = s.rejectCommand) ∨ (s.phase = .dec ∧ t = decodeSymbol c s) := by
  unfold execPuts at h
  cases hp : s.phase <;> simp only [hp, Host.Outcome.next.injEq] at h
  · exact .inl ⟨by simp, h.symm⟩
  · exact .inl ⟨by simp, h.symm⟩
  · exact .inr ⟨rfl, h.symm⟩

/-- What FIN can do (R154, R155). -/
theorem execFin_cases {s t : State} (h : execFin s = .next t) :
    (s.phase = .idle ∧ t = s.rejectCommand) ∨
    (s.phase = .enc ∧ ∃ ds s1, emitIndices (packTail s).1 (packTail s).2 = some (ds, s1) ∧
      t = closeConversion .ok (ds ++ (padOut s1).1) (padOut s1).2) ∨
    (s.phase = .dec ∧ t = closeConversion (errStatus (decodeChecks s).err) [] (decodeChecks s)) := by
  unfold execFin finishEncode finishDecode at h
  cases hp : s.phase with
  | idle => simp only [hp, Host.Outcome.next.injEq] at h; exact .inl ⟨rfl, h.symm⟩
  | dec => simp only [hp, Host.Outcome.next.injEq] at h; exact .inr (.inr ⟨rfl, h.symm⟩)
  | enc =>
    simp only [hp] at h
    split at h
    · cases h
    · rename_i ds s1 he
      simp only [Host.Outcome.next.injEq] at h
      exact .inr (.inl ⟨rfl, ds, s1, he, h.symm⟩)

/-- A run of some steps and then more is the one run after the other. -/
theorem run_add (M : Host.Core) (k l : Nat) (s t : M.State) (h : M.run k s = .next t) : M.run (k + l) s = M.run l t := by
  induction k generalizing s with
  | zero =>
    simp only [Host.Core.run, Host.Outcome.next.injEq] at h
    simp [h]
  | succ k ih =>
    rw [Nat.add_right_comm]
    simp only [Host.Core.run] at h ⊢
    split at h
    · rename_i s' hs
      exact ih s' h
    · cases h
    · cases h

end Sys2Proof.Machine
end

