-- ==== Sys2Proof/Laws/Runs.lean ====
section
/-! SUPPORT. Commands and the ports: a command reads neither port and appends one response, so a run of commands can be followed command
by command, with the ports as they happen to be. -/

namespace Sys2Proof.Machine

/-- The state with other ports. -/
def State.withPorts (ins : List Input) (rs : List Response) (s : State) : State := { s with inputs := ins, responses := rs }

section
variable (ins : List Input) (rs : List Response) (s : State)

@[simp] theorem State.withPorts_phase : (s.withPorts ins rs).phase = s.phase := rfl
@[simp] theorem State.withPorts_rsel : (s.withPorts ins rs).rsel = s.rsel := rfl
@[simp] theorem State.withPorts_acc : (s.withPorts ins rs).acc = s.acc := rfl
@[simp] theorem State.withPorts_cnt : (s.withPorts ins rs).cnt = s.cnt := rfl
@[simp] theorem State.withPorts_pos : (s.withPorts ins rs).pos = s.pos := rfl
@[simp] theorem State.withPorts_padf : (s.withPorts ins rs).padf = s.padf := rfl
@[simp] theorem State.withPorts_err : (s.withPorts ins rs).err = s.err := rfl
@[simp] theorem State.withPorts_rom128 : (s.withPorts ins rs).rom128 = s.rom128 := rfl
@[simp] theorem State.withPorts_inputs : (s.withPorts ins rs).inputs = ins := rfl
@[simp] theorem State.withPorts_responses : (s.withPorts ins rs).responses = rs := rfl

/-- Emission reads no port. -/
theorem emitIndices_withPorts (is : List Nat) :
    emitIndices is (s.withPorts ins rs) = (emitIndices is s).map fun p => (p.1, p.2.withPorts ins rs) := by
  induction is generalizing s with
  | nil => rfl
  | cons i is ih =>
    have e : (s.withPorts ins rs).advancePos = s.advancePos.withPorts ins rs := rfl
    simp only [emitIndices, e, ih, State.withPorts_rom128, State.withPorts_rsel]
    cases romI2S s.rom128 s.rsel i with
    | none => rfl
    | some c => cases emitIndices is s.advancePos <;> rfl

theorem packTail_withPorts : packTail (s.withPorts ins rs) = ((packTail s).1, (packTail s).2.withPorts ins rs) := by
  by_cases h : s.cnt.toNat = 0
  · simp only [packTail, State.withPorts_cnt, h, if_true]
  · simp only [packTail, State.withPorts_cnt, h, if_false]
    rfl

theorem unpackIndex_withPorts (i : Nat) :
    unpackIndex i (s.withPorts ins rs) = ((unpackIndex i s).1, (unpackIndex i s).2.withPorts ins rs) := by
  by_cases h : 8 ≤ s.cnt.toNat + width s.rsel <;>
    simp only [unpackIndex, State.withPorts_cnt, State.withPorts_rsel, h, if_true, if_false] <;> rfl

theorem decodeEnd_withPorts : decodeEnd (s.withPorts ins rs) = (decodeEnd s).withPorts ins rs := by
  by_cases hp : s.padf = true
  · by_cases h : s.pos.toNat ≠ 0
    · rw [decodeEnd, decodeEnd, if_pos (by simpa using hp), if_pos hp, if_pos (by simpa using h), if_pos h]
      rfl
    · rw [decodeEnd, decodeEnd, if_pos (by simpa using hp), if_pos hp, if_neg (by simpa using h), if_neg h]
  · by_cases h : s.pos.toNat ∈ validEnd s.rsel
    · rw [decodeEnd, decodeEnd, if_neg (by simpa using hp), if_neg hp, if_pos (by simpa using h), if_pos (by simpa using h)]
    · rw [decodeEnd, decodeEnd, if_neg (by simpa using hp), if_neg hp, if_neg (by simpa using h), if_neg (by simpa using h)]
      rfl

theorem unpackEnd_withPorts : unpackEnd (s.withPorts ins rs) = (unpackEnd s).withPorts ins rs := by
  by_cases h : s.acc.toNat ≠ 0
  · rw [unpackEnd, unpackEnd, if_pos (by simpa using h), if_pos h]
    rfl
  · rw [unpackEnd, unpackEnd, if_neg (by simpa using h), if_neg h]

theorem execPutb_reject {b : Byte} {s : State} (h : s.phase ≠ .enc) : execPutb b s = .next s.rejectCommand := by
  unfold execPutb
  cases hs : s.phase <;> first | exact absurd hs h | rfl

theorem execPuts_reject {c : CodePoint} {s : State} (h : s.phase ≠ .dec) : execPuts c s = .next s.rejectCommand := by
  unfold execPuts
  cases hs : s.phase <;> first | exact absurd hs h | rfl

theorem execFin_reject {s : State} (h : s.phase = .idle) : execFin s = .next s.rejectCommand := by
  unfold execFin
  rw [h]

theorem unpackIndex_ports (i : Nat) : (unpackIndex i s).2.inputs = s.inputs ∧ (unpackIndex i s).2.responses = s.responses := by
  rcases unpackIndex_cases i s with ⟨-, e⟩ | ⟨-, e⟩ <;> simp [e]

/-- The checks of FIN in DEC read no port. -/
theorem decodeChecks_withPorts : decodeChecks (s.withPorts ins rs) = (decodeChecks s).withPorts ins rs := by
  by_cases h : s.err = .noError
  · by_cases h' : (decodeEnd s).err = .noError <;>
      simp [decodeChecks, h, h', decodeEnd_withPorts, unpackEnd_withPorts]
  · simp [decodeChecks, h]

end

/-- PUTS in DEC reads neither port and appends one response. -/
theorem decodeSymbol_withPorts (c : CodePoint) (s : State) :
    ∃ a : Response, (decodeSymbol c s).responses = s.responses ++ [a] ∧ (decodeSymbol c s).inputs = s.inputs ∧
      ∀ ins rs, decodeSymbol c (s.withPorts ins rs) = (decodeSymbol c s).withPorts ins (rs ++ [a]) := by
  by_cases he : s.err = .noError
  · cases hr : romS2I s.rom128 s.rsel c with
    | unknown =>
      simp only [decodeSymbol, State.withPorts_err, State.withPorts_rom128, State.withPorts_rsel, he, ne_eq, not_true, if_false, hr]
      exact ⟨_, rfl, rfl, fun _ _ => rfl⟩
    | pad =>
      simp only [decodeSymbol, State.withPorts_err, State.withPorts_rom128, State.withPorts_rsel, he, ne_eq, not_true, if_false, hr]
      by_cases h : padInRefuses s = true
      · have e : ∀ ins rs, padInRefuses (s.withPorts ins rs) = true := fun _ _ => h
        simp only [decodePad, e, h, if_true]
        exact ⟨_, rfl, rfl, fun _ _ => rfl⟩
      · have e : ∀ ins rs, ¬ padInRefuses (s.withPorts ins rs) = true := fun _ _ => h
        simp only [decodePad, if_neg (e _ _), if_neg h]
        exact ⟨_, rfl, rfl, fun _ _ => rfl⟩
    | sym i =>
      simp only [decodeSymbol, State.withPorts_err, State.withPorts_rom128, State.withPorts_rsel, he, ne_eq, not_true, if_false, hr,
        decodeIndex, State.withPorts_padf, unpackIndex_withPorts]
      by_cases h : s.padf = true
      · simp only [h, if_true]
        exact ⟨_, rfl, rfl, fun _ _ => rfl⟩
      · simp only [h]
        refine ⟨_, congrArg (· ++ _) (unpackIndex_ports s i).2, (unpackIndex_ports s i).1, fun _ _ => rfl⟩
  · simp only [decodeSymbol, State.withPorts_err, ne_eq, he, not_false_eq_true, if_true]
    exact ⟨_, rfl, rfl, fun _ _ => rfl⟩

/-- A command that answers appends one response; with other ports it does the same to the registers and appends the same response there. -/
theorem exec_withPorts {i : Instr} {s t : State} (h : exec i s = .next t) :
    ∃ a : Response, t.responses = s.responses ++ [a] ∧ t.inputs = s.inputs ∧
      ∀ ins rs, exec i (s.withPorts ins rs) = .next (t.withPorts ins (rs ++ [a])) := by
  cases i with
  | cfg d r =>
    simp only [exec, execCfg, Host.Outcome.next.injEq] at h
    subst h
    exact ⟨_, rfl, rfl, fun _ _ => rfl⟩
  | putb b =>
    rcases execPutb_cases h with ⟨hp, rfl⟩ | ⟨hp, ds, s1, he, rfl⟩
    · refine ⟨_, rfl, rfl, fun ins rs => ?_⟩
      rw [exec, execPutb_reject (by simpa using hp)]
      rfl
    · obtain ⟨p, rfl⟩ := emitIndices_frame he
      refine ⟨_, rfl, rfl, fun ins rs => ?_⟩
      have e : packByte b (s.withPorts ins rs) = ((packByte b s).1, (packByte b s).2.withPorts ins rs) := rfl
      simp only [exec, execPutb, State.withPorts_phase, hp, encodeByte, e, emitIndices_withPorts, he, Option.map_some]
      rfl
  | puts c =>
    rcases execPuts_cases h with ⟨hp, rfl⟩ | ⟨hp, rfl⟩
    · refine ⟨_, rfl, rfl, fun ins rs => ?_⟩
      rw [exec, execPuts_reject (by simpa using hp)]
      rfl
    · obtain ⟨a, h1, h2, h3⟩ := decodeSymbol_withPorts c s
      exact ⟨a, h1, h2, fun ins rs => by simp only [exec, execPuts, State.withPorts_phase, hp, h3]⟩
  | fin =>
    rcases execFin_cases h with ⟨hp, rfl⟩ | ⟨hp, ds, s1, he, rfl⟩ | ⟨hp, rfl⟩
    · refine ⟨_, rfl, rfl, fun ins rs => ?_⟩
      rw [exec, execFin_reject (by simpa using hp)]
      rfl
    · obtain ⟨p, rfl⟩ := emitIndices_frame he
      obtain ⟨-, -, -, -, -, -, h1, h2⟩ := packTail_frame s
      refine ⟨⟨.ok, .idle, ds ++ (padOut ((packTail s).2.setPos p)).1⟩, congrArg (· ++ _) h2, h1, fun ins rs => ?_⟩
      simp only [exec, execFin, State.withPorts_phase, hp, finishEncode, packTail_withPorts, emitIndices_withPorts, he,
        Option.map_some]
      rfl
    · obtain ⟨e, h2⟩ := decodeChecks_frame s
      refine ⟨⟨errStatus (decodeChecks s).err, .idle, []⟩, by rw [h2]; rfl, by rw [h2]; rfl, fun ins rs => ?_⟩
      simp only [exec, execFin, State.withPorts_phase, hp, finishDecode, decodeChecks_withPorts]
      rfl

end Sys2Proof.Machine
end

