-- ==== Sys2Proof/Tests/Slice0.lean ====
section
/-! SUPPORT. The model's own tests. Expected results are the spec's: `spec/95_test_vectors.md` (the vector's name stands in each comment) and the
tables of R61 to R71. Then, for each statement with hypotheses, a concrete case that meets them all. -/

namespace Sys2Proof.Machine.Test

/-- A state by its registers, with the default table and empty ports. -/
def regs (p : Phase) (r : Rsel) (acc cnt pos : Nat) (padf : Bool) (e : Err) : State :=
  { State.reset with phase := p, rsel := r, acc := BitVec.ofNat 7 acc, cnt := BitVec.ofNat 3 cnt,
                     pos := BitVec.ofNat 3 pos, padf := padf, err := e }

/-- What a test compares: the seven registers and the words of the last response. -/
structure Seen where
  phase : Phase
  rsel  : Rsel
  acc   : Nat
  cnt   : Nat
  pos   : Nat
  padf  : Bool
  err   : Err
  words : List Nat
deriving DecidableEq, Repr

/-- What is seen of an outcome; none where the machine stops. -/
def shown : Host.Outcome State Fault Refusal → Option Seen
  | .next t    =>
    some ⟨t.phase, t.rsel, t.acc.toNat, t.cnt.toNat, t.pos.toNat, t.padf, t.err,
      ((t.responses.getLast?.map responseWords).getD []).map fun w => w.toNat⟩
  | .fault _   => none
  | .refused _ => none

/-! ### Well-formedness: one ill-formed term for each check -/

theorem test_wf_unassigned_opcodes : [0x00000000, 0xFFFFFFFF, 0x50000000, 0xF0000000].all (fun w => !wordWf w) = true := by decide

theorem test_wf_cfg_reserved : wordWf 0x10000008 = false ∧ wordWf 0x18000000 = false := by decide

theorem test_wf_putb_reserved : wordWf 0x20000100 = false ∧ wordWf 0x28000000 = false := by decide

theorem test_wf_puts_reserved : wordWf 0x30200000 = false ∧ wordWf 0x38000000 = false := by decide

theorem test_wf_fin_reserved : wordWf 0x40000001 = false ∧ wordWf 0x48000000 = false := by decide

theorem test_wf_legal_words : [0x10000007, 0x200000FF, 0x301FFFFF, 0x40000000].all wordWf = true := by decide

theorem test_wf_asm_byte : (AsmLine.putb 256).wf = false ∧ (AsmLine.putb 255).wf = true := by decide

theorem test_wf_asm_symbol : (AsmLine.puts 0x200000).wf = false ∧ (AsmLine.puts 0x1FFFFF).wf = true := by decide

theorem test_wf_asm_macros : (AsmLine.encodeBytes .radix64 [1, 300]).wf = false ∧
    (AsmLine.decodeSymbols .radix64 [0x200000]).wf = false := by decide

/-! ### Decoding: words written out from R61 to R64, bit by bit; and the illegal words D1 to D16 -/

theorem test_decode_cfg : decode 0b00010000000000000000000000000110 = .ok (.cfg .decode .radix16) := by decide

theorem test_decode_cfg_all : (List.range 8).map (fun n => decode (BitVec.ofNat 32 (0x10000000 + n))) =
    [.ok (.cfg .encode .radix64), .ok (.cfg .encode .radix32), .ok (.cfg .encode .radix16), .ok (.cfg .encode .radix128),
     .ok (.cfg .decode .radix64), .ok (.cfg .decode .radix32), .ok (.cfg .decode .radix16), .ok (.cfg .decode .radix128)] := by
  decide

theorem test_decode_putb : decode 0b00100000000000000000000010100101 = .ok (.putb 0xA5) := by decide

theorem test_decode_puts : decode 0b00110000000100000000000000000001 = .ok (.puts 0x100001) := by decide

theorem test_decode_fin : decode 0b01000000000000000000000000000000 = .ok .fin := by decide

theorem test_decode_reserved_bits :
    [0x10000008, 0x18000000, 0x20000100, 0x28000000, 0x30200000, 0x38000000, 0x40000001, 0x48000000].all
      (fun w => decode w = .error .reservedBits) = true := by decide

theorem test_decode_unassigned :
    [0x00000000, 0xFFFFFFFF, 0x0FFFFFFF, 0x50000000, 0x60000000, 0x70000000, 0x80000000, 0xF0000000].all
      (fun w => decode w = .error .unassignedOpcode) = true := by decide

theorem test_decode_table_word : decodeTableWord 32 0x20000041 = some (.putb 0x41) ∧ decodeTableWord 32 0x50000000 = none := by
  decide

/-! ### One step of each command -/

/-- C9: CFG restarts an open conversion. -/
theorem test_cfg_restarts : shown (step ((regs .dec .radix64 0x10 6 1 false .noError).withFetchWord 32 0x10000004)) =
    some ⟨.dec, .radix64, 0, 0, 0, false, .noError, [0x200]⟩ := by decide

/-- C10: CFG ends a failed conversion with no status. -/
theorem test_cfg_clears_err : shown (step ((regs .dec .radix16 0 0 0 false .invalidSymbol).withFetchWord 32 0x10000000)) =
    some ⟨.enc, .radix64, 0, 0, 0, false, .noError, [0x100]⟩ := by decide

/-- C16: radix-16, two symbols, POS advanced twice. -/
theorem test_putb_two_symbols : shown (step ((regs .enc .radix16 0 0 0 false .noError).withFetchWord 32 0x200000A5)) =
    some ⟨.enc, .radix16, 0, 0, 0, false, .noError, [0x120, 0x41, 0x35]⟩ := by decide

/-- P10 step 8: radix-128, one symbol of the default table and one bit kept. -/
theorem test_putb_radix128 : shown (step ((regs .enc .radix128 0 0 0 false .noError).withFetchWord 32 0x200000AB)) =
    some ⟨.enc, .radix128, 1, 1, 1, false, .noError, [0x110, 0x115]⟩ := by decide

/-- P11 step 4: radix-32, seven bits pending. -/
theorem test_puts_keeps_bits : shown (step ((regs .dec .radix32 1 2 2 false .noError).withFetchWord 32 0x30000058)) =
    some ⟨.dec, .radix32, 0x37, 7, 3, false, .noError, [0x200]⟩ := by decide

/-- P12 step 10: a symbol after a pad. -/
theorem test_puts_after_pad : shown (step ((regs .dec .radix64 0 4 3 true .noError).withFetchWord 32 0x30000051)) =
    some ⟨.dec, .radix64, 0, 4, 3, true, .malformedPadding, [0x203]⟩ := by decide

/-- C13: the largest FIN output. -/
theorem test_fin_tail_and_six_pads : shown (step ((regs .enc .radix32 6 3 1 false .noError).withFetchWord 32 0x40000000)) =
    some ⟨.idle, .radix32, 0, 0, 0, false, .noError, [0x70, 0x59, 0x3D, 0x3D, 0x3D, 0x3D, 0x3D, 0x3D]⟩ := by decide

/-- E39: a bad length goes before non-zero trailing bits. -/
theorem test_fin_length_before_bits : shown (step ((regs .dec .radix16 1 4 1 false .noError).withFetchWord 32 0x40000000)) =
    some ⟨.idle, .radix16, 0, 0, 0, false, .noError, [2]⟩ := by decide

/-- C30: an illegal command leaves ERR. -/
theorem test_illegal_keeps_err : shown (step ((regs .dec .radix64 0 0 0 false .malformedPadding).withFetchWord 32 0x20000041)) =
    some ⟨.dec, .radix64, 0, 0, 0, false, .malformedPadding, [0x205]⟩ := by decide

/-- R210: reset in the middle of a conversion. -/
theorem test_reset_event : shown (step { regs .dec .radix32 1 2 2 true .invalidSymbol with inputs := [.reset] }) =
    some ⟨.idle, .radix64, 0, 0, 0, false, .noError, []⟩ := by decide

/-! ### The ROM: the boundaries of RI1 to RI20 and RS1 to RS25 -/

theorem test_romI2S_boundaries :
    [romI2S alphabet128Default .radix64 25, romI2S alphabet128Default .radix64 51, romI2S alphabet128Default .radix64 61,
     romI2S alphabet128Default .radix64 63, romI2S alphabet128Default .radix32 26, romI2S alphabet128Default .radix16 10,
     romI2S alphabet128Default .radix128 127, romI2S alphabet128Default .radix128 128] =
    [some 0x5A, some 0x7A, some 0x39, some 0x2F, some 0x32, some 0x41, some 0x13F, none] := by decide +kernel

theorem test_romS2I_kinds :
    [romS2I alphabet128Default .radix64 0x51, romS2I alphabet128Default .radix64 0x3D, romS2I alphabet128Default .radix64 0x20,
     romS2I alphabet128Default .radix32 0x31, romS2I alphabet128Default .radix16 0x66, romS2I alphabet128Default .radix16 0x3D,
     romS2I alphabet128Default .radix128 0x13F, romS2I alphabet128Default .radix128 0x3D,
     romS2I alphabet128Default .radix128 0x1FFFFF] =
    [.sym 16, .pad, .unknown, .unknown, .unknown, .unknown, .sym 127, .unknown, .unknown] := by decide +kernel

/-- R103 (b): SPACE and TILDE (the 95 of C4), the default's ends, the ends of the scalar values; then RS25's NUL and other controls,
noncharacters, RS24's surrogate, and what lies above 0x10FFFF (R105). -/
theorem test_printable :
    [0x20, 0x7E, 0xC0, 0x13F, 0xD7FF, 0xE000, 0x10FFFD].all printable = true ∧
    [0x00, 0x1F, 0x7F, 0x9F, 0xFDD0, 0xFFFE, 0xD800, 0xDFFF, 0x10FFFF, 0x110000, 0x1FFFFF].all (fun c => !printable c) = true := by
  decide

/-- A table with a surrogate is none R103 allows. -/
theorem test_surrogate_table : ¬ Alphabet128.Printable (alphabet128Default.set 5 0xD800) :=
  fun h => absurd (h 0xD800 (by decide +kernel)) (by decide)

/-! ### Witnesses: for each statement with hypotheses, a case that meets them -/

theorem default_table_distinct : alphabet128Default.Distinct := by
  unfold Alphabet128.Distinct
  decide +kernel

theorem default_table_allowed : alphabet128Default.Allowed :=
  ⟨default_table_distinct, List.all_eq_true.mp (by decide +kernel)⟩

/-- A radix-64 encode conversion after one byte (P1 step 2). -/
def encMid : State := regs .enc .radix64 1 2 1 false .noError

/-- A radix-64 decode conversion after two symbols (P6 step 3), one leftover bit set. -/
def decMid : State := regs .dec .radix64 1 4 2 false .noError

/-- A radix-64 decode conversion after two symbols and one pad (P2 step 4). -/
def decPad : State := regs .dec .radix64 0 4 3 true .noError

/-- The same after the second pad (P2 step 5). -/
def decPadDone : State := regs .dec .radix64 0 4 0 true .noError

/-- A failed radix-16 decode conversion (P5 step 5). -/
def decFailed : State := regs .dec .radix16 0 0 0 false .invalidSymbol

theorem encMid_inv : encMid.Inv := ⟨default_table_allowed, by decide, rfl, rfl, 1, by decide, by decide, by decide⟩

theorem decMid_inv : decMid.Inv :=
  ⟨default_table_allowed, by decide, by decide, fun _ => by decide, fun h => (by cases h), .inl rfl⟩

theorem decPad_inv : decPad.Inv :=
  ⟨default_table_allowed, by decide, by decide, fun h => (by cases h), fun _ => ⟨rfl, 2, by decide, by decide, .inr (by decide)⟩,
    .inl rfl⟩

theorem decPadDone_inv : decPadDone.Inv :=
  ⟨default_table_allowed, by decide, by decide, fun h => (by cases h), fun _ => ⟨rfl, 2, by decide, by decide, .inl rfl⟩, .inl rfl⟩

theorem decFailed_inv : decFailed.Inv :=
  ⟨default_table_allowed, by decide, by decide, fun _ => by decide, fun h => (by cases h), .inr (.inl rfl)⟩

/-- DecodeFollowsTheFormats, EncodeOfDecodedIsTheWord: each format at its highest word. -/
theorem witness_formats :
    (decode 0x10000007 = .ok (.cfg .decode .radix128) ∧ ((0x10000007#32).extractLsb 31 28).toNat = 1 ∧
      ((0x10000007#32).extractLsb 27 3).toNat = 0) ∧
    (decode 0x200000FF = .ok (.putb 0xFF) ∧ ((0x200000FF#32).extractLsb 31 28).toNat = 2 ∧
      ((0x200000FF#32).extractLsb 27 8).toNat = 0) ∧
    (decode 0x301FFFFF = .ok (.puts 0x1FFFFF) ∧ ((0x301FFFFF#32).extractLsb 31 28).toNat = 3 ∧
      ((0x301FFFFF#32).extractLsb 27 21).toNat = 0) ∧
    (decode 0x40000000 = .ok .fin ∧ ((0x40000000#32).extractLsb 31 28).toNat = 4 ∧
      ((0x40000000#32).extractLsb 27 0).toNat = 0) := by decide

/-- AssemblerWords at the ends of the operand ranges. -/
theorem witness_assembler :
    assemble (.putb 255) = some [0x200000FF] ∧ assemble (.putb 256) = none ∧
    assemble (.puts (2 ^ 21 - 1)) = some [0x301FFFFF] ∧ assemble (.puts (2 ^ 21)) = none ∧
    assemble (.encodeBytes .radix64 [0x41]) = some [0x10000000, 0x20000041, 0x40000000] ∧
    assemble (.decodeSymbols .radix64 [0x51, 0x3D]) = some [0x10000004, 0x30000051, 0x3000003D, 0x40000000] := by decide

/-- ResponseWordsFollowTheFormat: the longest response (P3 step 3). -/
theorem witness_longest_response :
    (⟨.ok, .idle, .symbol 0x59 :: List.replicate 6 (.symbol 0x3D)⟩ : Response).data.length ≤ 7 ∧
    responseWords ⟨.ok, .idle, .symbol 0x59 :: List.replicate 6 (.symbol 0x3D)⟩ =
      0x70 :: 0x59 :: List.replicate 6 0x3D := by decide

/-- StepExecutesTheDecodedCommand, EachCommandGetsOneResponse, FirstErrorIsRecordedAndSticky (a PUTS that sets ERR),
EmittedValuesBelongToTheCodec: a presented legal word and the step's answer. -/
theorem witness_step_command :
    ({ decMid with inputs := [.command 0x3000002D] } : State).inputs = [.command 0x3000002D] ∧
    decode 0x3000002D = .ok (.puts 0x2D) ∧
    (∃ t, step { decMid with inputs := [.command 0x3000002D] } = .next t ∧ t.err = .invalidSymbol ∧ decMid.err = .noError) ∧
    (∃ t, step { encMid with inputs := [.command 0x20000061] } = .next t ∧ t.responses.length = 1) :=
  ⟨rfl, by decide, ⟨_, rfl, by decide, rfl⟩, ⟨_, rfl, by decide⟩⟩

/-- FirstErrorIsRecordedAndSticky, the other clauses: ERR set already, and CFG and FIN that clear it. -/
theorem witness_err_kept_and_cleared :
    (∃ t, step { decFailed with inputs := [.command 0x30000030] } = .next t ∧ t.err = .invalidSymbol) ∧
    (∃ t, step { decFailed with inputs := [.command 0x40000000] } = .next t ∧ t.err = .noError) ∧
    (∃ t, step { decFailed with inputs := [.command 0x10000000] } = .next t ∧ t.err = .noError) :=
  ⟨⟨_, rfl, by decide⟩, ⟨_, rfl, by decide⟩, ⟨_, rfl, by decide⟩⟩

/-- PlacedWordRunsNext. -/
theorem witness_placed_word : decodeTableWord 32 0x10000000 = some (.cfg .encode .radix64) ∧
    ∃ t, step (State.reset.withFetchWord 32 0x10000000) = .next t ∧ t.phase = .enc := ⟨by decide, _, rfl, by decide⟩

/-- BlockWaitsForACommand, ResetEventGivesTheResetState. -/
theorem witness_empty_port_and_reset : decMid.inputs = [] ∧
    ({ decMid with inputs := [.reset] } : State).inputs = [.reset] := ⟨rfl, rfl⟩

/-- IllegalCommandsWriteNothing: its four causes. -/
theorem witness_illegal :
    (decode 0x00000000 = .error .unassignedOpcode) ∧
    (decode 0x20000041 = .ok (.putb 0x41) ∧ decMid.phase ≠ .enc) ∧
    (decode 0x30000041 = .ok (.puts 0x41) ∧ encMid.phase ≠ .dec) ∧
    (decode 0x40000000 = .ok .fin ∧ State.reset.phase = .idle) := by decide

/-- ResetValues, its second half: FIN closes a conversion. -/
theorem witness_fin_closes : decMid.phase ≠ .idle ∧ ∃ t, exec .fin decMid = .next t := ⟨by decide, _, rfl⟩

/-- RunsAnswerInOrder, RselIsUnobservableInIdle: a run of two steps from an idle state. -/
theorem witness_run : State.reset.phase = .idle ∧
    ∃ t, Sys2Proof.core.run 2 { State.reset with inputs := [.command 0x10000001, .command 0x20000041] } = .next t :=
  ⟨rfl, _, rfl⟩

/-- PutbPacksTheByte, PackByteIndexCount, PackByteKeepsTheBitQueue: one group from `encMid`; two groups on a block's third byte (P8 step 4);
and a phase that rejects. -/
theorem witness_putb :
    (encMid.phase = .enc ∧ encMid.ReservoirOk ∧ encMid.cnt.toNat < width encMid.rsel ∧
      encMid.cnt.toNat + 8 < 2 * width encMid.rsel) ∧
    ((regs .enc .radix64 5 4 2 false .noError).ReservoirOk ∧ 4 < width .radix64 ∧ 2 * width .radix64 ≤ 4 + 8) ∧
    decMid.phase ≠ .enc :=
  ⟨⟨rfl, by decide, by decide, by decide⟩, ⟨by decide, by decide, by decide⟩, by decide⟩

/-- EncodeConversionsRaiseNoError, ResponseCountsByCommand, CntTakesOnlyTheListedValues, IntermediateValuesFit, LegalityByPhase: a good state
in ENC with a word presented, and one in DEC. -/
theorem witness_good_states : encMid.Inv ∧ encMid.phase = .enc ∧ decMid.Inv ∧ decMid.phase = .dec ∧
    ({ encMid with inputs := [.command 0x30000041] } : State).inputs = [.command 0x30000041] :=
  ⟨encMid_inv, rfl, decMid_inv, rfl, rfl⟩

/-- PutsIsAbsorbedAfterAnError, FinReportsTheSameErrorEarlyOrLate. -/
theorem witness_absorbed : decFailed.phase = .dec ∧ decFailed.err ≠ .noError := by decide

/-- PutsInvalidSymbol: a line feed in radix-64, and `=` in radix-16. -/
theorem witness_invalid_symbol : decMid.phase = .dec ∧ decMid.err = .noError ∧
    (0x0A : CodePoint) ∉ romTable decMid.rom128 decMid.rsel ∧ ¬(padded decMid.rsel = true ∧ (0x0A : CodePoint) = 0x3D) ∧
    (0x3D : CodePoint) ∉ romTable decMid.rom128 .radix16 ∧ padded .radix16 = false := by decide +kernel

/-- PutsPad: a first pad in a good place and in a bad one, a second pad, and one too many. -/
theorem witness_pad : padded decMid.rsel = true ∧ decMid.padf = false ∧ decMid.pos.toNat ∈ validM decMid.rsel ∧
    (regs .dec .radix64 0x10 6 1 false .noError).pos.toNat ∉ validM .radix64 ∧
    (decPad.padf = true ∧ decPad.pos.toNat ≠ 0) ∧ (decPadDone.padf = true ∧ decPadDone.pos.toNat = 0) := by decide

/-- PutsSymbolAfterPad. -/
theorem witness_symbol_after_pad : decPad.phase = .dec ∧ decPad.err = .noError ∧ decPad.padf = true ∧
    (0x51 : CodePoint) ∈ romTable decPad.rom128 decPad.rsel := by decide +kernel

/-- PutsUnpacksTheIndex: a symbol that completes a byte (P2 step 3), and one that does not (P2 step 2). -/
theorem witness_unpack : decMid.phase = .dec ∧ decMid.err = .noError ∧ decMid.padf = false ∧ decMid.rom128.Distinct ∧ decMid.ReservoirOk ∧
    romI2S decMid.rom128 decMid.rsel 16 = some 0x51 ∧ 8 ≤ decMid.cnt.toNat + width decMid.rsel ∧
    (regs .dec .radix64 0 0 0 false .noError).cnt.toNat + width .radix64 < 8 :=
  ⟨rfl, rfl, rfl, default_table_distinct, by decide, by decide, by decide, by decide⟩

/-- MalformedPaddingHasFourCauses, FinMalformedLengthExactly: good decode states without an error, with pads and without. -/
theorem witness_malformed : decPad.Inv ∧ decPadDone.Inv ∧ decMid.Inv ∧ decMid.err = .noError ∧
    answerStatus (exec .fin decPad) = some .malformedPadding ∧ answerStatus (exec .fin decMid) = some .malformedLength :=
  ⟨decPad_inv, decPadDone_inv, decMid_inv, rfl, by decide, by decide⟩

/-- FinMalformedLengthExactly at radix-128: POS 1 and POS 2 (R182: 8k + 1 symbols); and at the other codecs' POS 1. -/
theorem witness_malformed_length :
    (regs .dec .radix128 0 7 1 false .noError).Inv ∧ (regs .dec .radix128 0 6 2 false .noError).Inv ∧
    answerStatus (exec .fin (regs .dec .radix128 0 7 1 false .noError)) = some .malformedLength ∧
    answerStatus (exec .fin (regs .dec .radix128 0 6 2 false .noError)) = some .ok ∧
    answerStatus (exec .fin (regs .dec .radix16 0 4 1 false .noError)) = some .malformedLength ∧
    answerStatus (exec .fin (regs .dec .radix32 0 5 1 false .noError)) = some .malformedLength :=
  ⟨⟨default_table_allowed, by decide, by decide, fun _ => by decide, fun h => (by cases h), .inl rfl⟩,
   ⟨default_table_allowed, by decide, by decide, fun _ => by decide, fun h => (by cases h), .inl rfl⟩,
   by decide, by decide, by decide, by decide⟩

/-- IntermediateValuesFit at its bounds: radix-128 with six bits pending and then the largest byte; seven bits and then the largest
index. -/
theorem witness_largest_transients :
    (regs .enc .radix128 0x3F 6 6 false .noError).Inv ∧ (regs .dec .radix128 0x7F 7 1 false .noError).Inv ∧
    0x3F * 2 ^ 8 + 0xFF < 2 ^ 14 ∧ 0x7F < 2 ^ width .radix128 ∧ 0x7F * 2 ^ width .radix128 + 0x7F < 2 ^ 14 :=
  ⟨⟨default_table_allowed, by decide, rfl, rfl, 6, by decide, by decide, by decide⟩,
   ⟨default_table_allowed, by decide, by decide, fun _ => by decide, fun h => (by cases h), .inl rfl⟩,
   by decide, by decide, by decide⟩

/-- NoTableHoldsANonScalar: a good decode state, a table entry, a surrogate and a value above 0x10FFFF (RS24, R105). -/
theorem witness_non_scalar : alphabet128Default.Printable ∧ decMid.Inv ∧ decMid.phase = .dec ∧ decMid.err = .noError ∧
    (0x13F : CodePoint) ∈ romTable alphabet128Default .radix128 ∧
    (0xD800 ≤ (0xD800 : CodePoint).toNat ∧ (0xD800 : CodePoint).toNat ≤ 0xDFFF) ∧ 0x10FFFF < (0x110000 : CodePoint).toNat :=
  ⟨default_table_allowed.2, decMid_inv, rfl, rfl, by decide +kernel, by decide, by decide⟩

/-- RomIsValidFromReset, ResetSatisfiesInv: an allowed table, and the last index of the largest table. -/
theorem witness_allowed_table : alphabet128Default.Allowed ∧ 127 < alphabetSize .radix128 ∧
    romI2S alphabet128Default .radix128 127 = some 0x13F := ⟨default_table_allowed, by decide, by decide +kernel⟩

/-- FinInEncEmitsTailAndPads: bits pending, and none. -/
theorem witness_fin_enc : encMid.phase = .enc ∧ encMid.ReservoirOk ∧ encMid.cnt.toNat < width encMid.rsel ∧
    encMid.pos.toNat < blockSymbols encMid.rsel ∧ encMid.cnt.toNat ≠ 0 ∧
    (regs .enc .radix64 0 0 0 false .noError).cnt.toNat = 0 := ⟨rfl, by decide, by decide, by decide, by decide, by decide⟩

/-- FinInDecReportsTheFirstError, FinNonZeroTrailingBitsExactly: a recorded error; too few pads; a bad length; a set leftover bit after good
padding ("QR==", P6); and a good end (P2). -/
theorem witness_fin_dec :
    answerStatus (exec .fin decFailed) = some .invalidSymbol ∧
    answerStatus (exec .fin decPad) = some .malformedPadding ∧
    answerStatus (exec .fin decMid) = some .malformedLength ∧
    answerStatus (exec .fin (regs .dec .radix64 1 4 0 true .noError)) = some .nonZeroTrailingBits ∧
    answerStatus (exec .fin decPadDone) = some .ok := by decide

/-- RomClassifiesSymbols, RomPortsAreInverse, PadIsNoTableEntry. -/
theorem witness_rom : alphabet128Default.Distinct ∧ padded .radix64 = true ∧
    (0x41 : CodePoint) ∈ romTable alphabet128Default .radix64 ∧ (0x3D : CodePoint) ∉ romTable alphabet128Default .radix64 ∧
    (0x20 : CodePoint) ∉ romTable alphabet128Default .radix64 := ⟨default_table_distinct, by decide +kernel⟩

/-- StepKeepsInv, GoodStatesRunForever: a good state and a step from it. -/
theorem witness_step_inv : encMid.Inv ∧ ∃ t, step encMid = .next t := ⟨encMid_inv, _, rfl⟩

/-- NothingWritesTheRom, OnlyCfgAndResetWriteRsel, OnlyCfgFinAndResetMovePhase, OtherCodecsIgnoreAlphabet128: steps that change RSEL and
PHASE. -/
theorem witness_control :
    encMid.rsel ≠ .radix128 ∧
    (∃ t, step { encMid with inputs := [.command 0x10000007] } = .next t ∧ t.rsel ≠ encMid.rsel ∧ t.phase ≠ encMid.phase) ∧
    (∃ t, step { encMid with inputs := [.command 0x40000000] } = .next t ∧ t.phase ≠ encMid.phase) ∧
    (∃ t, step { decFailed with inputs := [.reset] } = .next t ∧ t.rsel ≠ decFailed.rsel) :=
  ⟨by decide, ⟨_, rfl, by decide, by decide⟩, ⟨_, rfl, by decide⟩, ⟨_, rfl, by decide⟩⟩

/-- BlocksRealign: a conversion at a block boundary, one block each way. -/
theorem witness_block :
    ((regs .enc .radix64 0 0 0 false .noError).phase = .enc ∧ ([0x4D, 0x61, 0x6E] : List Byte).length = 1 * blockBytes .radix64) ∧
    ((regs .dec .radix64 0 0 0 false .noError).phase = .dec ∧
      ([0x51, 0x55, 0x4A, 0x44] : List CodePoint).length = 1 * blockSymbols .radix64 ∧
      ∀ c ∈ ([0x51, 0x55, 0x4A, 0x44] : List CodePoint), c ∈ romTable alphabet128Default .radix64) := by
  refine ⟨by decide, by decide, by decide, fun c hc => ?_⟩
  simp only [List.mem_cons, List.not_mem_nil, or_false] at hc
  rcases hc with rfl | rfl | rfl | rfl <;> decide

/-- ConversionsForgetEarlierState: two different states with one table. -/
theorem witness_same_table : encMid.rom128 = decFailed.rom128 ∧ encMid.rsel ≠ decFailed.rsel := ⟨rfl, by decide⟩

/-- OddRadix16InputIsMalformedLength: "410" (E38). -/
theorem witness_odd : (∀ c ∈ ([0x34, 0x31, 0x30] : List CodePoint), c ∈ romTable encMid.rom128 .radix16) ∧
    ([0x34, 0x31, 0x30] : List CodePoint).length % 2 = 1 := by
  refine ⟨fun c hc => ?_, by decide⟩
  simp only [List.mem_cons, List.not_mem_nil, or_false] at hc
  rcases hc with rfl | rfl | rfl <;> decide

/-- DecodeOfEncodeIsTheBytes, DecodeAcceptsExactlyEncodings: "QQ==" (V2). -/
theorem witness_conversion : State.reset.rom128.Distinct ∧ encodeCall .radix64 [0x41] State.reset = some [0x51, 0x51, 0x3D, 0x3D] :=
  ⟨default_table_distinct, by decide +kernel⟩

end Sys2Proof.Machine.Test
end

section
/-! SUPPORT. What a conversion depends on (`00_scope.md` R12, `43_commands.md` R151): a run reads of its ports only the inputs it takes,
and CFG, with which every conversion begins, overwrites all it could read besides the alphabet ROM. -/

namespace Sys2Proof.Machine

/-! ### Steps and runs with other ports -/

/-- A presented command word that decodes is executed with the word taken from the port (R150). -/
theorem step_of_decode {s : State} {w : Word} {xs : List Input} {i : Instr} (hin : s.inputs = .command w :: xs)
    (hd : decode w = .ok i) : step s = exec i { s with inputs := xs } := by
  simp only [step, takeInput, hin, hd]

/-- A presented ILLEGAL word is rejected (R155). -/
theorem step_of_illegal {s : State} {w : Word} {xs : List Input} {e : Reject} (hin : s.inputs = .command w :: xs)
    (hd : decode w = .error e) : step s = .next ({ s with inputs := xs } : State).rejectCommand := by
  simp only [step, takeInput, hin, hd]

/-- A presented reset event resets the block (R210). -/
theorem step_of_reset {s : State} {xs : List Input} (hin : s.inputs = .reset :: xs) :
    step s = .next ({ s with inputs := xs } : State).resetEvent := by
  simp only [step, takeInput, hin]

/-- A step reads of its ports only the input it takes: with other ports it does the same to the registers and appends the same
responses there. -/
theorem step_withPorts {s t : State} {x : Input} {xs : List Input} (hin : s.inputs = x :: xs) (h : step s = .next t) :
    ∃ added : List Response, t.responses = s.responses ++ added ∧ t.inputs = xs ∧
      ∀ ins rs, step (s.withPorts (x :: ins) rs) = .next (t.withPorts ins (rs ++ added)) := by
  cases x with
  | reset =>
    rw [step_of_reset hin, Host.Outcome.next.injEq] at h
    subst h
    refine ⟨[], (List.append_nil _).symm, rfl, fun ins rs => ?_⟩
    rw [step_of_reset rfl, List.append_nil]
    rfl
  | command w =>
    cases hd : decode w with
    | error e =>
      rw [step_of_illegal hin hd, Host.Outcome.next.injEq] at h
      subst h
      exact ⟨[_], rfl, rfl, fun ins rs => step_of_illegal rfl hd⟩
    | ok i =>
      rw [step_of_decode hin hd] at h
      obtain ⟨a, hresp, hins, hports⟩ := exec_withPorts h
      exact ⟨[a], hresp, hins, fun ins rs => (step_of_decode rfl hd).trans (hports ins rs)⟩

/-- The step of the machine as the host's interface reads it. -/
theorem core_step (s : State) : Sys2Proof.core.step s = step s := rfl

/-- A run of one step more is the step and then the run. -/
theorem run_succ_eq_next_iff {k : Nat} {s t : State} :
    Sys2Proof.core.run (k + 1) s = .next t ↔ ∃ u, step s = .next u ∧ Sys2Proof.core.run k u = .next t := by
  simp only [Host.Core.run, core_step]
  cases step s <;> simp

/-- Runs that begin with the same step are the same. -/
theorem run_succ_congr {s t : State} (k : Nat) (h : step s = step t) :
    Sys2Proof.core.run (k + 1) s = Sys2Proof.core.run (k + 1) t := by
  simp only [Host.Core.run, core_step, h]

/-- A run reads of its ports only the inputs it takes. -/
theorem run_withPorts {xs ys : List Input} {s t : State} (hin : s.inputs = xs ++ ys)
    (h : Sys2Proof.core.run xs.length s = .next t) :
    ∃ added : List Response, t.responses = s.responses ++ added ∧ t.inputs = ys ∧
      ∀ ins rs, Sys2Proof.core.run xs.length (s.withPorts (xs ++ ins) rs) = .next (t.withPorts ins (rs ++ added)) := by
  induction xs generalizing s with
  | nil =>
    cases h
    exact ⟨[], (List.append_nil _).symm, hin, fun ins rs => by rw [List.append_nil]; rfl⟩
  | cons x xs ih =>
    obtain ⟨u, hstep, hrun⟩ := run_succ_eq_next_iff.mp h
    obtain ⟨first, hresp, hins, hports⟩ := step_withPorts hin hstep
    obtain ⟨later, hresp', hins', hports'⟩ := ih hins hrun
    refine ⟨first ++ later, by rw [hresp', hresp, List.append_assoc], hins', fun ins rs => ?_⟩
    rw [← List.append_assoc]
    exact run_succ_eq_next_iff.mpr ⟨_, hports (xs ++ ins) rs, hports' ins (rs ++ first)⟩

/-- A run of commands does not read what is presented after them or was answered before: it appends the same responses to any port. -/
theorem runCommands_withPorts {is : List Instr} {s t : State} (h : runCommands is s = .next t) :
    ∃ added : List Response, t.responses = s.responses ++ added ∧
      ∀ ins rs, runCommands is (s.withPorts ins rs) = .next (t.withPorts ins (rs ++ added)) := by
  have hlen : (is.map fun i => Input.command (encode i)).length = is.length := List.length_map _
  rw [runCommands, ← hlen] at h
  obtain ⟨added, hresp, -, hports⟩ := run_withPorts (s := s.presentAll is) rfl h
  refine ⟨added, hresp, fun ins rs => ?_⟩
  rw [runCommands, ← hlen]
  exact hports ins rs

/-! ### The answers to a list of commands -/

/-- The responses to these commands, which is all of the run an encode or a decode call looks at (R12, R156, R157); none if the run
stops. -/
def answersTo (is : List Instr) (s : State) : Option (List Response) :=
  match runCommands is s with
  | .next t    => some (responsesSince s.responses.length t)
  | .fault _   => none
  | .refused _ => none

theorem encodeCall_eq_answersTo (r : Rsel) (bs : List Byte) (s : State) :
    encodeCall r bs s = (answersTo (encodeCommands r bs) s).map fun rs => symbolsOf (dataOf rs) := by
  unfold encodeCall answersTo
  cases runCommands (encodeCommands r bs) s <;> rfl

theorem decodeCall_eq_answersTo (r : Rsel) (cs : List CodePoint) (s : State) :
    decodeCall r cs s = (answersTo (decodeCommands r cs) s).map decodeResult := by
  unfold decodeCall answersTo
  cases runCommands (decodeCommands r cs) s <;> rfl

/-- Commands are answered by `rs` exactly when their run ends with `rs` appended. -/
theorem answersTo_eq_some_iff {is : List Instr} {s : State} {rs : List Response} :
    answersTo is s = some rs ↔ ∃ t, runCommands is s = .next t ∧ t.responses = s.responses ++ rs := by
  constructor
  · intro h
    cases hrun : runCommands is s with
    | fault f => simp [answersTo, hrun] at h
    | refused f => simp [answersTo, hrun] at h
    | next t =>
      obtain ⟨added, hresp, -⟩ := runCommands_withPorts hrun
      obtain rfl : added = rs := by simpa [answersTo, hrun, responsesSince, hresp] using h
      exact ⟨t, rfl, hresp⟩
  · rintro ⟨t, hrun, hresp⟩
    simp only [answersTo, hrun, responsesSince, hresp, List.drop_left]

/-- Commands that run are answered the same with other ports. -/
theorem answersTo_withPorts_of_some {is : List Instr} {s : State} {rs : List Response} (h : answersTo is s = some rs)
    (ins : List Input) (old : List Response) : answersTo is (s.withPorts ins old) = some rs := by
  obtain ⟨t, hrun, hresp⟩ := answersTo_eq_some_iff.mp h
  obtain ⟨added, hadded, hports⟩ := runCommands_withPorts hrun
  obtain rfl : added = rs := List.append_cancel_left (hadded.symm.trans hresp)
  exact answersTo_eq_some_iff.mpr ⟨_, hports ins old, rfl⟩

/-- What is answered to the commands does not depend on the ports: not on what was answered before, nor on what is presented later. -/
theorem answersTo_withPorts (is : List Instr) (s : State) (ins : List Input) (old : List Response) :
    answersTo is (s.withPorts ins old) = answersTo is s :=
  Option.ext fun _ =>
    ⟨fun h => answersTo_withPorts_of_some h s.inputs s.responses, fun h => answersTo_withPorts_of_some h ins old⟩

/-! ### CFG forgets the registers -/

theorem decode_encode_cfg (d : Dir) (r : Rsel) : decode (encode (.cfg d r)) = .ok (.cfg d r) := by
  cases d <;> cases r <;> decide

/-- CFG writes every register, so only the ROM and the ports of its state remain (R151). -/
theorem exec_cfg_congr (d : Dir) (r : Rsel) {s t : State} (hrom : s.rom128 = t.rom128) (hin : s.inputs = t.inputs)
    (hresp : s.responses = t.responses) : exec (.cfg d r) s = exec (.cfg d r) t := by
  simp only [exec, execCfg, Host.Outcome.next.injEq]
  ext1 <;> simp [hrom, hin, hresp]

/-- Commands that begin with CFG are answered the same from any two states with the same table. -/
theorem answersTo_cfg_congr (d : Dir) (r : Rsel) (is : List Instr) {s t : State} (hrom : s.rom128 = t.rom128) :
    answersTo (.cfg d r :: is) s = answersTo (.cfg d r :: is) t := by
  have hstep : step (s.presentAll (.cfg d r :: is)) =
      step ((t.withPorts s.inputs s.responses).presentAll (.cfg d r :: is)) := by
    rw [step_of_decode rfl (decode_encode_cfg d r), step_of_decode rfl (decode_encode_cfg d r)]
    exact exec_cfg_congr d r hrom rfl rfl
  have hrun : runCommands (.cfg d r :: is) s = runCommands (.cfg d r :: is) (t.withPorts s.inputs s.responses) :=
    run_succ_congr is.length hstep
  calc answersTo (.cfg d r :: is) s
      = answersTo (.cfg d r :: is) (t.withPorts s.inputs s.responses) := by
        rw [answersTo, answersTo, hrun, State.withPorts_responses]
    _ = answersTo (.cfg d r :: is) t := answersTo_withPorts _ t _ _

/-- Settles O53: both calls look only at what is answered to commands that begin with CFG. -/
theorem conversionsForgetEarlierState : Obligations.ConversionsForgetEarlierState := by
  intro r s t hrom
  constructor
  · intro bs
    rw [encodeCall_eq_answersTo, encodeCall_eq_answersTo, encodeCommands, answersTo_cfg_congr .encode r _ hrom]
  · intro cs
    rw [decodeCall_eq_answersTo, decodeCall_eq_answersTo, decodeCommands, answersTo_cfg_congr .decode r _ hrom]

end Sys2Proof.Machine
end

section
/-! SUPPORT. The registers of `10_state.md`: which inputs write the ROM, RSEL and PHASE, that every step keeps the invariant of R23 to
R28, and that RSEL is unobservable in IDLE. -/

namespace Sys2Proof.Machine

/-! ### What the shared operations leave -/

/-- UnpackIndex writes ACC and CNT alone. -/
theorem unpackIndex_frame (i : Nat) (s : State) : ∃ t c, (unpackIndex i s).2 = s.setReservoir t c := by
  rcases unpackIndex_cases i s with ⟨-, e⟩ | ⟨-, e⟩ <;> exact ⟨_, _, congrArg Prod.snd e⟩

/-- PUTS in DEC writes none of PHASE, RSEL and the ROM. -/
theorem decodeSymbol_frame (c : CodePoint) (s : State) :
    (decodeSymbol c s).rom128 = s.rom128 ∧ (decodeSymbol c s).rsel = s.rsel ∧ (decodeSymbol c s).phase = s.phase := by
  rcases decodeSymbol_cases c s with ⟨-, e⟩ | ⟨-, -, e⟩ | ⟨-, -, -, e⟩ | ⟨-, -, -, e⟩ | ⟨i, -, -, -, e⟩ |
    ⟨i, -, -, -, e⟩ <;> rw [e]
  on_goal 6 =>
    obtain ⟨t, n, hu⟩ := unpackIndex_frame i s
    rw [hu]
  all_goals exact ⟨rfl, rfl, rfl⟩

/-- FIN closes an open conversion: R31's registers except RSEL, the ROM and the inputs as they were (R154). -/
theorem execFin_closes {s t : State} (hopen : s.phase ≠ .idle) (h : execFin s = .next t) :
    ∃ u st ds, t = closeConversion st ds u ∧ u.rsel = s.rsel ∧ u.rom128 = s.rom128 ∧ u.inputs = s.inputs := by
  rcases execFin_cases h with ⟨hp, -⟩ | ⟨-, ds, s1, he, rfl⟩ | ⟨-, rfl⟩
  · exact absurd hp hopen
  · obtain ⟨p, rfl⟩ := emitIndices_frame he
    obtain ⟨-, hrsel, -, -, -, hrom, hin, -⟩ := packTail_frame s
    exact ⟨_, _, _, rfl, hrsel, hrom, hin⟩
  · obtain ⟨e, he⟩ := decodeChecks_frame s
    exact ⟨_, _, _, rfl, by rw [he]; rfl, by rw [he]; rfl, by rw [he]; rfl⟩

/-! ### Who writes the ROM, RSEL and PHASE -/

/-- A command leaves the ROM; CFG writes RSEL and PHASE, FIN may close the conversion, and no other command writes either. -/
theorem exec_control {i : Instr} {s t : State} (h : exec i s = .next t) :
    t.rom128 = s.rom128 ∧
    ((∃ d, i = .cfg d t.rsel ∧ t.phase = phaseOfDir d) ∨ (i = .fin ∧ t.rsel = s.rsel ∧ t.phase = .idle) ∨
      (t.rsel = s.rsel ∧ t.phase = s.phase)) := by
  cases i with
  | cfg d r =>
    cases h
    exact ⟨rfl, .inl ⟨d, rfl, rfl⟩⟩
  | putb b =>
    rcases execPutb_cases h with ⟨-, rfl⟩ | ⟨-, ds, s1, he, rfl⟩
    · exact ⟨rfl, .inr (.inr ⟨rfl, rfl⟩)⟩
    · obtain ⟨p, rfl⟩ := emitIndices_frame he
      exact ⟨rfl, .inr (.inr ⟨rfl, rfl⟩)⟩
  | puts c =>
    rcases execPuts_cases h with ⟨-, rfl⟩ | ⟨-, rfl⟩
    · exact ⟨rfl, .inr (.inr ⟨rfl, rfl⟩)⟩
    · exact ⟨(decodeSymbol_frame c s).1, .inr (.inr (decodeSymbol_frame c s).2)⟩
  | fin =>
    by_cases hp : s.phase = .idle
    · cases (execFin_reject hp).symm.trans h
      exact ⟨rfl, .inr (.inr ⟨rfl, rfl⟩)⟩
    · obtain ⟨u, st, ds, rfl, hrsel, hrom, -⟩ := execFin_closes hp h
      exact ⟨hrom, .inr (.inl ⟨rfl, hrsel, rfl⟩)⟩

/-- A step leaves the ROM, and it writes RSEL or PHASE only on a reset event, a CFG or a FIN. -/
theorem step_control {s t : State} (h : step s = .next t) :
    t.rom128 = s.rom128 ∧
    ((∃ xs, s.inputs = .reset :: xs ∧ t.phase = .idle) ∨
      (∃ w xs d, s.inputs = .command w :: xs ∧ decode w = .ok (.cfg d t.rsel) ∧ t.phase = phaseOfDir d) ∨
      (∃ w xs, s.inputs = .command w :: xs ∧ decode w = .ok .fin ∧ t.rsel = s.rsel ∧ t.phase = .idle) ∨
      (t.rsel = s.rsel ∧ t.phase = s.phase)) := by
  rcases step_cases h with ⟨-, rfl⟩ | ⟨xs, hin, rfl⟩ | ⟨w, xs, i, hin, hd, hexec⟩ | ⟨w, xs, e, -, -, rfl⟩
  · exact ⟨rfl, .inr (.inr (.inr ⟨rfl, rfl⟩))⟩
  · exact ⟨rfl, .inl ⟨xs, hin, rfl⟩⟩
  · obtain ⟨hrom, ⟨d, rfl, hp⟩ | ⟨rfl, hrsel, hp⟩ | hkeep⟩ := exec_control hexec
    · exact ⟨hrom, .inr (.inl ⟨w, xs, d, hin, hd, hp⟩)⟩
    · exact ⟨hrom, .inr (.inr (.inl ⟨w, xs, hin, hd, hrsel, hp⟩))⟩
    · exact ⟨hrom, .inr (.inr (.inr hkeep))⟩
  · exact ⟨rfl, .inr (.inr (.inr ⟨rfl, rfl⟩))⟩

/-- Settles O40: a part of what a step can do to the ROM, RSEL and PHASE. -/
theorem nothingWritesTheRom : Obligations.NothingWritesTheRom :=
  fun _ _ h => (step_control h).1

/-- Settles O41: of the ways a step may write RSEL or PHASE, FIN keeps RSEL. -/
theorem onlyCfgAndResetWriteRsel : Obligations.OnlyCfgAndResetWriteRsel := by
  intro s t h hne
  rcases (step_control h).2 with ⟨xs, hin, -⟩ | ⟨w, xs, d, hin, hd, -⟩ | ⟨w, xs, -, -, hrsel, -⟩ | ⟨hrsel, -⟩
  · exact .inl ⟨xs, hin⟩
  · exact .inr ⟨w, xs, d, hin, hd⟩
  · exact absurd hrsel hne
  · exact absurd hrsel hne

/-- Settles O42: each way a step may write PHASE names the phase it leaves. -/
theorem onlyCfgFinAndResetMovePhase : Obligations.OnlyCfgFinAndResetMovePhase := by
  intro s t h hne
  rcases (step_control h).2 with ⟨xs, hin, hp⟩ | ⟨w, xs, d, hin, hd, hp⟩ | ⟨w, xs, hin, hd, -, hp⟩ | ⟨-, hp⟩
  · exact .inl ⟨xs, hin, hp⟩
  · cases d with
    | encode => exact .inr ⟨w, xs, t.rsel, hin, .inl ⟨hd, hp⟩⟩
    | decode => exact .inr ⟨w, xs, t.rsel, hin, .inr (.inl ⟨hd, hp⟩)⟩
  · exact .inr ⟨w, xs, t.rsel, hin, .inr (.inr ⟨hd, hp⟩)⟩
  · exact absurd hp hne

/-- Settles O14: FIN in an open phase ends by closing the conversion, which writes every register but RSEL. -/
theorem resetValues : Obligations.ResetValues := by
  refine ⟨⟨rfl, rfl, rfl, rfl, rfl, rfl, rfl⟩, fun s t hopen h => ?_⟩
  obtain ⟨u, st, ds, rfl, hrsel, hrom, hin⟩ := execFin_closes hopen h
  ext1 <;> simp [State.resetWith, hrsel, hrom, hin]

/-! ### The default table (R103) -/

/-- A range of code points has no repeats as long as it stays in 21 bits. -/
theorem codeRange_nodup {first n : Nat} (h : first + n ≤ 2 ^ 21) : (codeRange first n).Nodup := by
  refine List.Nodup.map_on (fun i hi j hj hij => ?_) List.nodup_range
  have hi := List.mem_range.mp hi
  have hj := List.mem_range.mp hj
  have hmod := congrArg BitVec.toNat hij
  rw [BitVec.toNat_ofNat, BitVec.toNat_ofNat, Nat.mod_eq_of_lt (by omega), Nat.mod_eq_of_lt (by omega)] at hmod
  exact Nat.add_left_cancel hmod

/-- The default table is the 128 code points from U+00C0 on (R103, decision D7). -/
theorem alphabet128Default_toList : alphabet128Default.toList = codeRange 0xC0 128 := by
  rw [alphabet128Default, Vector.toList_ofFn, List.ofFn_eq_map, codeRange, ← List.map_coe_finRange_eq_range, List.map_map]
  rfl

/-- The default table is one R103 allows: its entries lie between the C1 controls and the surrogates. -/
theorem alphabet128Default_allowed : alphabet128Default.Allowed := by
  unfold Alphabet128.Allowed Alphabet128.Distinct Alphabet128.Printable
  rw [alphabet128Default_toList]
  refine ⟨codeRange_nodup (by decide), fun c hc => ?_⟩
  obtain ⟨i, hi, rfl⟩ := List.mem_map.mp hc
  have hlt := List.mem_range.mp hi
  have hval : (BitVec.ofNat 21 (0xC0 + i)).toNat = 0xC0 + i := by
    rw [BitVec.toNat_ofNat, Nat.mod_eq_of_lt (by omega)]
  simp only [printable, isScalarValue, isControl, isNoncharacter, hval, Bool.and_eq_true, Bool.or_eq_true,
    Bool.not_eq_true', Bool.or_eq_false_iff, Bool.and_eq_false_iff, decide_eq_true_eq, decide_eq_false_iff_not]
  omega

/-! ### The invariant: what does not read it, and the cleared conversion -/

/-- The invariant is about the registers and the ROM: responding keeps it. -/
theorem inv_respond {st : Status} {ds : List Datum} {s : State} : (s.respond st ds).Inv ↔ s.Inv := Iff.rfl

theorem blockBytes_pos (r : Rsel) : 0 < blockBytes r := by cases r <;> decide

/-- The registers of an empty conversion meet the invariant in every phase, with every codec. -/
theorem inv_clearConversion {s : State} (h : s.rom128.Allowed) : s.clearConversion.Inv := by
  have hres : s.clearConversion.ReservoirOk := Nat.one_pos
  refine ⟨h, hres, ?_⟩
  unfold State.PhaseOk
  rw [State.clearConversion_phase]
  cases s.phase with
  | idle => exact ⟨rfl, rfl, rfl, rfl⟩
  | enc => exact ⟨rfl, rfl, 0, blockBytes_pos s.rsel, by simp, by simp⟩
  | dec => exact ⟨by simpa using blockSymbols_pos s.rsel, fun _ => by simp, fun h => absurd h (by simp), .inl rfl⟩

/-- Settles O37: the state after reset is an empty conversion's. -/
theorem resetSatisfiesInv : Obligations.ResetSatisfiesInv := by
  have hreset : ∀ A : Alphabet128, A.Allowed → (State.resetWith A).Inv :=
    fun A hA => inv_clearConversion (s := State.resetWith A) hA
  exact ⟨hreset, hreset _ alphabet128Default_allowed⟩

/-! ### Encode conversions: CNT and POS count the bytes -/

/-- CNT and POS after n bytes do not change when n is taken modulo the block (R28): a block is L bytes and S symbols. -/
theorem encode_count_mod_block (r : Rsel) (n : Nat) :
    8 * (n % blockBytes r) % width r = 8 * n % width r ∧
      8 * (n % blockBytes r) / width r % blockSymbols r = 8 * n / width r % blockSymbols r := by
  have hW : 0 < width r := by have := width_ge_four r; omega
  have hn : 8 * n = 8 * (n % blockBytes r) + width r * (blockSymbols r * (n / blockBytes r)) := by
    rw [← Nat.mul_assoc, ← eight_mul_blockBytes, Nat.mul_assoc, ← Nat.mul_add, Nat.mod_add_div]
  rw [hn, Nat.add_mul_mod_self_left, Nat.add_mul_div_left _ _ hW, Nat.add_mul_mod_self_left]
  exact ⟨rfl, rfl⟩

/-- ENC's registers after any number of bytes, counted from the start of the conversion, are as R28 says. -/
theorem encodeOk_of_count {s : State} (hpadf : s.padf = false) (herr : s.err = .noError) (n : Nat)
    (hcnt : s.cnt.toNat = 8 * n % width s.rsel) (hpos : s.pos.toNat = 8 * n / width s.rsel % blockSymbols s.rsel) :
    s.EncodeOk := by
  obtain ⟨hc, hp⟩ := encode_count_mod_block s.rsel n
  exact ⟨hpadf, herr, n % blockBytes s.rsel, Nat.mod_lt _ (blockBytes_pos _), hcnt.trans hc.symm, hpos.trans hp.symm⟩

/-- In numbers: `k` whole symbols taken off and `c'` bits left of the bits held and 8 more are quotient and remainder of the bits of
one byte more. -/
theorem quotient_and_remainder_of_next_byte {w n k c' : Nat} (hc' : c' < w) (h : k * w + c' = 8 * n % w + 8) :
    8 * (n + 1) % w = c' ∧ 8 * (n + 1) / w = 8 * n / w + k := by
  have hdm := Nat.div_add_mod (8 * n) w
  have hbits : 8 * (n + 1) = c' + w * (8 * n / w + k) := by
    rw [Nat.mul_comm k w] at h
    rw [Nat.mul_add w]
    omega
  rw [hbits, Nat.add_mul_mod_self_left, Nat.add_mul_div_left _ _ (by omega), Nat.mod_eq_of_lt hc',
    Nat.div_eq_of_lt hc', Nat.zero_add]
  exact ⟨rfl, rfl⟩

/-- PackByte accounts for every bit: W for each index, and the rest in CNT (R80, R81). -/
theorem packByte_count (b : Byte) (s : State) :
    (packByte b s).1.length * width s.rsel + (packByte b s).2.cnt.toNat = s.cnt.toNat + 8 := by
  have hc := s.cnt.isLt
  have hleft := packLoop_leaves_less_than_width s.rsel (s.acc.toNat * 256 + b.toNat) (c := s.cnt.toNat + 8) (by omega)
  have hw := width_le_seven s.rsel
  rw [packByte_eq, State.setReservoir_cnt, BitVec.toNat_ofNat, Nat.mod_eq_of_lt (by omega : _ < 2 ^ 3)]
  exact (packLoop_value _ 3 _ _).2

/-- One byte into an encode conversion, its symbols emitted, keeps R28's registers. -/
theorem encodeOk_of_putb {b : Byte} {s s' : State} {ds : List Datum} (hres : s.ReservoirOk) (henc : s.EncodeOk)
    (he : emitIndices (packByte b s).1 (packByte b s).2 = some (ds, s')) : s'.ReservoirOk ∧ s'.EncodeOk := by
  obtain ⟨hpadf, herr, n, -, hcnt, hpos⟩ := henc
  have hS := blockSymbols_pos s.rsel
  have hlt : s.pos.toNat < blockSymbols s.rsel := hpos ▸ Nat.mod_lt _ hS
  obtain ⟨hres', hleft⟩ := packByte_reservoir (b := b) hres
  obtain ⟨hc, hp⟩ := quotient_and_remainder_of_next_byte hleft (hcnt ▸ packByte_count b s)
  obtain rfl := emitIndices_pos he hlt
  refine ⟨hres', encodeOk_of_count hpadf herr (n + 1) hc.symm ?_⟩
  have hfit := Nat.lt_of_lt_of_le (Nat.mod_lt (s.pos.toNat + (packByte b s).1.length) hS) (blockSymbols_le_eight s.rsel)
  calc ((s.pos.toNat + (packByte b s).1.length) % blockSymbols s.rsel) % 2 ^ 3
      = (s.pos.toNat + (packByte b s).1.length) % blockSymbols s.rsel := Nat.mod_eq_of_lt hfit
    _ = 8 * (n + 1) / width s.rsel % blockSymbols s.rsel := by rw [hp, hpos, Nat.mod_add_mod]

/-! ### Decode conversions: CNT counts the symbols, POS the symbols and pads -/

/-- DEC's registers with ERR recorded, as PUTS records it (R181, R183). -/
theorem decodeOk_failWith {s : State} {e : Err} (h : s.DecodeOk)
    (he : e = .invalidSymbol ∨ (e = .malformedPadding ∧ padded s.rsel = true)) : (s.failWith e).DecodeOk := by
  obtain ⟨hlt, hsym, hpad, -⟩ := h
  exact ⟨hlt, hsym, hpad, .inr he⟩

/-- Only a padded codec has accepted a pad. -/
theorem padded_of_decodeOk {s : State} (h : s.DecodeOk) (hp : s.padf = true) : padded s.rsel = true := by
  obtain ⟨-, -, hpad, -⟩ := h
  exact (hpad hp).1

/-- An accepted pad keeps R28's registers: a first pad stands at a POS in VALIDM, and a later one moves POS on or completes the block
(R123). -/
theorem decodeOk_acceptPad {s : State} (h : s.DecodeOk) (hpadded : padded s.rsel = true) (hin : padInRefuses s = false) :
    (acceptPad s).DecodeOk := by
  obtain ⟨hlt, hsym, hpad, herr⟩ := h
  have hpos : (acceptPad s).pos.toNat = (s.pos.toNat + 1) % blockSymbols s.rsel := advancePos_toNat s
  have hcount : ∃ m, m ∈ validM s.rsel ∧ s.cnt.toNat = width s.rsel * m % 8 ∧ m < s.pos.toNat + 1 := by
    cases hp : s.padf with
    | false => exact ⟨s.pos.toNat, by simpa [padInRefuses, hp] using hin, hsym hp, Nat.lt_succ_self _⟩
    | true =>
      obtain ⟨-, m, hm, hcnt, hz | hmp⟩ := hpad hp
      · exact absurd hz (by simpa [padInRefuses, hp] using hin)
      · exact ⟨m, hm, hcnt, by omega⟩
  obtain ⟨m, hm, hcnt, hmp⟩ := hcount
  refine ⟨hpos ▸ Nat.mod_lt _ (blockSymbols_pos _), fun hf => absurd hf (by simp), fun _ => ⟨hpadded, m, hm, hcnt, ?_⟩, herr⟩
  rw [hpos]
  rcases Nat.lt_or_ge (s.pos.toNat + 1) (blockSymbols s.rsel) with hnext | hwrap
  · exact .inr (by rwa [Nat.mod_eq_of_lt hnext])
  · exact .inl (by rw [show s.pos.toNat + 1 = blockSymbols s.rsel by omega, Nat.mod_self])

/-- W times a number of symbols, modulo 8, does not change when the number is taken modulo the block. -/
theorem decode_count_mod_block (r : Rsel) (n : Nat) : width r * (n % blockSymbols r) % 8 = width r * n % 8 := by
  conv_rhs => rw [← Nat.mod_add_div n (blockSymbols r), Nat.mul_add, ← Nat.mul_assoc, ← eight_mul_blockBytes,
    Nat.mul_assoc, Nat.add_mul_mod_self_left]

/-- A table symbol before any pad keeps R28's registers: W bits more, of which UnpackIndex takes 8 when they are there (R85). -/
theorem decodeOk_of_index {s : State} {i : Nat} (hres : s.ReservoirOk) (h : s.DecodeOk) (hpadf : s.padf = false)
    (hi : i < 2 ^ width s.rsel) :
    (unpackIndex i s).2.advancePos.ReservoirOk ∧ (unpackIndex i s).2.advancePos.DecodeOk := by
  obtain ⟨-, hsym, -, herr⟩ := h
  obtain ⟨hres', hcnt⟩ := unpackIndex_reservoir hres hi
  have hpos := advancePos_toNat (unpackIndex i s).2
  obtain ⟨t, c, hu⟩ := unpackIndex_frame i s
  rw [hu] at hres' hcnt hpos ⊢
  refine ⟨hres', hpos ▸ Nat.mod_lt _ (blockSymbols_pos _), fun _ => ?_, fun hp => absurd (hpadf.symm.trans hp) (by simp), herr⟩
  rw [hpos]
  calc (s.setReservoir t c).cnt.toNat
      = (width s.rsel * s.pos.toNat % 8 + width s.rsel) % 8 := by rw [hcnt, hsym hpadf]
    _ = width s.rsel * (s.pos.toNat + 1) % 8 := by rw [Nat.mod_add_mod, Nat.mul_succ]
    _ = width s.rsel * ((s.pos.toNat + 1) % blockSymbols s.rsel) % 8 := (decode_count_mod_block _ _).symm

/-- PUTS in DEC keeps R28's registers. -/
theorem decodeOk_decodeSymbol (c : CodePoint) {s : State} (hres : s.ReservoirOk) (h : s.DecodeOk) :
    (decodeSymbol c s).ReservoirOk ∧ (decodeSymbol c s).DecodeOk := by
  rcases decodeSymbol_cases c s with ⟨-, e⟩ | ⟨-, -, e⟩ | ⟨-, hpad, -, e⟩ | ⟨-, hpad, hin, e⟩ | ⟨i, -, -, hp, e⟩ |
    ⟨i, -, hsym, hp, e⟩ <;> rw [e]
  · exact ⟨hres, h⟩
  · exact ⟨hres, decodeOk_failWith h (.inl rfl)⟩
  · exact ⟨hres, decodeOk_failWith h (.inr ⟨rfl, (romS2I_pad hpad).1⟩)⟩
  · exact ⟨hres, decodeOk_acceptPad h (romS2I_pad hpad).1 hin⟩
  · exact ⟨hres, decodeOk_failWith h (.inr ⟨rfl, padded_of_decodeOk h hp⟩)⟩
  · exact decodeOk_of_index hres h hp (romS2I_sym_lt hsym)

/-! ### Every step keeps the invariant -/

theorem phaseOk_idle {s : State} (hp : s.phase = .idle) : s.PhaseOk ↔ s.IdleOk := by rw [State.PhaseOk, hp]

theorem phaseOk_enc {s : State} (hp : s.phase = .enc) : s.PhaseOk ↔ s.EncodeOk := by rw [State.PhaseOk, hp]

theorem phaseOk_dec {s : State} (hp : s.phase = .dec) : s.PhaseOk ↔ s.DecodeOk := by rw [State.PhaseOk, hp]

/-- Every command keeps the invariant. -/
theorem exec_keeps_inv {i : Instr} {s t : State} (hinv : s.Inv) (h : exec i s = .next t) : t.Inv := by
  obtain ⟨hrom, hres, hphase⟩ := hinv
  cases i with
  | cfg d r =>
    cases h
    exact inv_respond.mpr (inv_clearConversion (s := (s.setRsel r).setPhase (phaseOfDir d)) hrom)
  | putb b =>
    rcases execPutb_cases h with ⟨-, rfl⟩ | ⟨hp, ds, s1, he, rfl⟩
    · exact ⟨hrom, hres, hphase⟩
    · obtain ⟨hres', henc'⟩ := encodeOk_of_putb hres ((phaseOk_enc hp).mp hphase) he
      obtain ⟨p, rfl⟩ := emitIndices_frame he
      refine inv_respond.mpr ⟨hrom, hres', (phaseOk_enc ?_).mpr henc'⟩
      exact hp
  | puts c =>
    rcases execPuts_cases h with ⟨-, rfl⟩ | ⟨hp, rfl⟩
    · exact ⟨hrom, hres, hphase⟩
    · obtain ⟨hres', hdec'⟩ := decodeOk_decodeSymbol c hres ((phaseOk_dec hp).mp hphase)
      obtain ⟨hrom', -, hp'⟩ := decodeSymbol_frame c s
      exact ⟨hrom' ▸ hrom, hres', (phaseOk_dec (hp'.trans hp)).mpr hdec'⟩
  | fin =>
    by_cases hp : s.phase = .idle
    · cases (execFin_reject hp).symm.trans h
      exact ⟨hrom, hres, hphase⟩
    · obtain ⟨u, st, ds, rfl, -, hrom', -⟩ := execFin_closes hp h
      exact inv_respond.mpr (inv_clearConversion (s := u.setPhase .idle) (hrom' ▸ hrom))

/-- Settles O38: waiting and rejecting change no register, the reset event clears the conversion, and every command keeps the
invariant. -/
theorem stepKeepsInv : Obligations.StepKeepsInv := by
  intro s t hinv h
  rcases step_cases h with ⟨-, rfl⟩ | ⟨xs, -, rfl⟩ | ⟨w, xs, i, -, -, hexec⟩ | ⟨w, xs, e, -, -, rfl⟩
  · exact hinv
  · exact inv_clearConversion (s := (s.setPhase .idle).setRsel .radix64) hinv.1
  · exact exec_keeps_inv (s := { s with inputs := xs }) hinv hexec
  · exact hinv

/-! ### The values of CNT -/

/-- In DEC, CNT is W·k mod 8 for some k, with pads and without (R28). -/
theorem decodeOk_cnt {s : State} (h : s.DecodeOk) : ∃ k, s.cnt.toNat = width s.rsel * k % 8 := by
  obtain ⟨-, hsym, hpad, -⟩ := h
  cases hp : s.padf with
  | false => exact ⟨_, hsym hp⟩
  | true =>
    obtain ⟨-, m, -, hcnt, -⟩ := hpad hp
    exact ⟨m, hcnt⟩

/-- Settles O46: CNT is 8·n mod W in ENC and W·k mod 8 in DEC, and the lists are the values of these, codec by codec. -/
theorem cntTakesOnlyTheListedValues : Obligations.CntTakesOnlyTheListedValues := by
  rintro s ⟨-, hres, hphase⟩
  refine ⟨fun hp => ?_, fun hp => ?_, fun hp => ?_⟩
  · obtain ⟨hcnt, -⟩ := (phaseOk_idle hp).mp hphase
    rw [State.ReservoirOk, hcnt] at hres
    exact ⟨hcnt, Nat.lt_one_iff.mp hres⟩
  · obtain ⟨-, -, n, -, hcnt, -⟩ := (phaseOk_enc hp).mp hphase
    rw [hcnt]
    cases s.rsel <;> simp only [width, List.mem_cons, List.not_mem_nil] <;> omega
  · obtain ⟨k, hcnt⟩ := decodeOk_cnt ((phaseOk_dec hp).mp hphase)
    rw [hcnt]
    cases s.rsel <;> simp only [width, List.mem_cons, List.not_mem_nil] <;> omega

/-! ### RSEL in IDLE -/

/-- In IDLE a command either writes RSEL without reading it, as CFG does, or is rejected. -/
theorem exec_setRsel_of_idle {i : Instr} {s t : State} (r : Rsel) (hp : s.phase = .idle) (h : exec i s = .next t) :
    exec i (s.setRsel r) = .next t ∨ (t.phase = .idle ∧ exec i (s.setRsel r) = .next (t.setRsel r)) := by
  cases i with
  | cfg d q => exact .inl h
  | putb b =>
    have hne : s.phase ≠ .enc := by simp [hp]
    cases (execPutb_reject hne).symm.trans h
    exact .inr ⟨hp, execPutb_reject (s := s.setRsel r) hne⟩
  | puts c =>
    have hne : s.phase ≠ .dec := by simp [hp]
    cases (execPuts_reject hne).symm.trans h
    exact .inr ⟨hp, execPuts_reject (s := s.setRsel r) hne⟩
  | fin =>
    cases (execFin_reject hp).symm.trans h
    exact .inr ⟨hp, execFin_reject (s := s.setRsel r) hp⟩

/-- With nothing presented the block waits (log entry 3). -/
theorem step_of_nothing_presented {s : State} (hin : s.inputs = []) : step s = .next s := by
  simp only [step, takeInput, hin]

/-- From IDLE a step with another RSEL ends in the same state, or again in IDLE with only RSEL different. -/
theorem step_setRsel_of_idle {s t : State} (r : Rsel) (hp : s.phase = .idle) (h : step s = .next t) :
    step (s.setRsel r) = .next t ∨ (t.phase = .idle ∧ step (s.setRsel r) = .next (t.setRsel r)) := by
  rcases step_cases h with ⟨hin, rfl⟩ | ⟨xs, hin, rfl⟩ | ⟨w, xs, i, hin, hd, hexec⟩ | ⟨w, xs, e, hin, hd, rfl⟩
  · exact .inr ⟨hp, step_of_nothing_presented (s := t.setRsel r) hin⟩
  · exact .inl (step_of_reset (s := s.setRsel r) hin)
  · rw [step_of_decode (s := s.setRsel r) hin hd]
    exact exec_setRsel_of_idle (s := { s with inputs := xs }) r hp hexec
  · exact .inr ⟨hp, step_of_illegal (s := s.setRsel r) hin hd⟩

/-- Settles O48, by induction on the steps: RSEL is either overwritten unread, and the runs are the same from there, or both runs are
still in IDLE with the same responses. -/
theorem rselIsUnobservableInIdle : Obligations.RselIsUnobservableInIdle := by
  intro k
  induction k with
  | zero =>
    intro s t r _ hrun
    cases hrun
    exact ⟨_, rfl, rfl⟩
  | succ k ih =>
    intro s t r hp hrun
    obtain ⟨u, hstep, hrun⟩ := run_succ_eq_next_iff.mp hrun
    rcases step_setRsel_of_idle r hp hstep with hsame | ⟨hidle, hdiff⟩
    · exact ⟨t, run_succ_eq_next_iff.mpr ⟨u, hsame, hrun⟩, rfl⟩
    · obtain ⟨t', hrun', hresp⟩ := ih u t r hidle hrun
      exact ⟨t', run_succ_eq_next_iff.mpr ⟨_, hdiff, hrun'⟩, hresp⟩

end Sys2Proof.Machine
end

section
/-! SUPPORT. The memories of `20_memory.md`: the ports are queues in order (R51), PackByte keeps the bit queue (R44, R80, R81), and a
lookup reads the table RSEL selects alone (R40). -/

namespace Sys2Proof.Machine

/-! ### The ports are queues -/

/-- A step takes the next input, if there is one, and appends at most one response. -/
theorem step_queues {s t : State} (h : step s = .next t) :
    t.inputs = s.inputs.tail ∧ ∃ added : List Response, t.responses = s.responses ++ added ∧ added.length ≤ 1 := by
  rcases step_cases h with ⟨hin, rfl⟩ | ⟨xs, hin, rfl⟩ | ⟨w, xs, i, hin, -, hexec⟩ | ⟨w, xs, e, hin, -, rfl⟩ <;> rw [hin]
  · exact ⟨rfl, [], (List.append_nil _).symm, Nat.zero_le 1⟩
  · exact ⟨rfl, [], (List.append_nil _).symm, Nat.zero_le 1⟩
  · obtain ⟨a, hresp, hins, -⟩ := exec_withPorts hexec
    exact ⟨hins, [a], hresp, Nat.le_refl 1⟩
  · exact ⟨rfl, [_], rfl, Nat.le_refl 1⟩

/-- Settles O16, by induction on the steps: each takes one input and appends at most one response. -/
theorem runsAnswerInOrder : Obligations.RunsAnswerInOrder := by
  intro k
  induction k with
  | zero =>
    intro s t hrun
    cases hrun
    exact ⟨rfl, [], (List.append_nil _).symm, Nat.zero_le 0⟩
  | succ k ih =>
    intro s t hrun
    obtain ⟨u, hstep, hrun⟩ := run_succ_eq_next_iff.mp hrun
    obtain ⟨hins, first, hresp, hfirst⟩ := step_queues hstep
    obtain ⟨hins', later, hresp', hlater⟩ := ih u t hrun
    refine ⟨by rw [hins', hins, List.drop_tail], first ++ later, by rw [hresp', hresp, List.append_assoc], ?_⟩
    rw [List.length_append]
    omega

/-! ### The bit queue -/

/-- What PackByte leaves fits ACC and CNT, so the registers hold its loop's results uncut (R81, R162). -/
theorem packByte_uncut {b : Byte} {s : State} (h : s.ReservoirOk) :
    (packByte b s).2.acc.toNat = (packLoop (width s.rsel) 3 (s.acc.toNat * 256 + b.toNat) (s.cnt.toNat + 8)).2.1 ∧
    (packByte b s).2.cnt.toNat = (packLoop (width s.rsel) 3 (s.acc.toNat * 256 + b.toNat) (s.cnt.toNat + 8)).2.2 := by
  have hb := b.isLt
  have hc := s.cnt.isLt
  have ht : s.acc.toNat * 256 + b.toNat < 2 ^ (s.cnt.toNat + 8) := by
    rw [Nat.pow_add]; omega
  have hacc := (packLoop_bounds (width s.rsel) 3 _ _ ht).2
  have hcnt := packLoop_leaves_less_than_width s.rsel (s.acc.toNat * 256 + b.toNat) (c := s.cnt.toNat + 8) (by omega)
  have hw := width_le_seven s.rsel
  rw [packByte_eq]
  exact ⟨Nat.mod_eq_of_lt (hacc.trans_le (Nat.pow_le_pow_right (by decide) (by omega))), Nat.mod_eq_of_lt (by omega)⟩

/-- PackByte's indices in base 2^W, then the bits it leaves, are the bits held and then the byte's (R44, R80, R81). -/
theorem packByte_value {b : Byte} {s : State} (h : s.ReservoirOk) :
    ((packByte b s).1.foldl (fun a i => a * 2 ^ width s.rsel + i) 0) * 2 ^ (packByte b s).2.cnt.toNat
      + (packByte b s).2.acc.toNat = s.acc.toNat * 2 ^ 8 + b.toNat := by
  obtain ⟨hacc, hcnt⟩ := packByte_uncut (b := b) h
  rw [hacc, hcnt, packByte_eq]
  exact (packLoop_value _ 3 _ _).1

/-- Settles O20: the queue's value and bit count are those of PackByte's loop, and its bounds are known. -/
theorem packByteKeepsTheBitQueue : Obligations.PackByteKeepsTheBitQueue :=
  fun b s hres _ =>
    ⟨packByte_value hres, packByte_count b s, alphabetSize_eq_two_pow_width s.rsel ▸ packByte_lt hres,
      (packByte_reservoir hres).1⟩

/-! ### The table another codec does not read -/

/-- Only RSEL = radix-128 selects the parameter (R40, R103). -/
theorem romTable_congr {r : Rsel} (hr : r ≠ .radix128) (A B : Alphabet128) : romTable A r = romTable B r := by
  cases r with
  | radix64 => rfl
  | radix32 => rfl
  | radix16 => rfl
  | radix128 => exact absurd rfl hr

theorem romI2S_congr {r : Rsel} (hr : r ≠ .radix128) (A B : Alphabet128) (i : Nat) : romI2S A r i = romI2S B r i := by
  rw [romI2S, romI2S, romTable_congr hr A B]

theorem romS2I_congr {r : Rsel} (hr : r ≠ .radix128) (A B : Alphabet128) (c : CodePoint) :
    romS2I A r c = romS2I B r c := by
  rw [romS2I, romS2I, romTable_congr hr A B]

/-- The state with another radix-128 table. -/
def State.withRom (A : Alphabet128) (s : State) : State := { s with rom128 := A }

section
variable (A : Alphabet128) (s : State)

@[simp] theorem State.withRom_phase : (s.withRom A).phase = s.phase := rfl
@[simp] theorem State.withRom_rsel : (s.withRom A).rsel = s.rsel := rfl
@[simp] theorem State.withRom_acc : (s.withRom A).acc = s.acc := rfl
@[simp] theorem State.withRom_cnt : (s.withRom A).cnt = s.cnt := rfl
@[simp] theorem State.withRom_pos : (s.withRom A).pos = s.pos := rfl
@[simp] theorem State.withRom_padf : (s.withRom A).padf = s.padf := rfl
@[simp] theorem State.withRom_err : (s.withRom A).err = s.err := rfl
@[simp] theorem State.withRom_rom128 : (s.withRom A).rom128 = A := rfl
@[simp] theorem State.withRom_inputs : (s.withRom A).inputs = s.inputs := rfl
@[simp] theorem State.withRom_responses : (s.withRom A).responses = s.responses := rfl

/-! The operations that read no table at all. -/

theorem packByte_withRom (b : Byte) : packByte b (s.withRom A) = ((packByte b s).1, (packByte b s).2.withRom A) := rfl

theorem packTail_withRom : packTail (s.withRom A) = ((packTail s).1, (packTail s).2.withRom A) := by
  by_cases h : s.cnt.toNat = 0
  · simp only [packTail, State.withRom_cnt, h, if_true]
  · simp only [packTail, State.withRom_cnt, h, if_false]
    rfl

theorem unpackIndex_withRom (i : Nat) :
    unpackIndex i (s.withRom A) = ((unpackIndex i s).1, (unpackIndex i s).2.withRom A) := by
  by_cases h : 8 ≤ s.cnt.toNat + width s.rsel
  · simp only [unpackIndex, State.withRom_cnt, State.withRom_rsel, h, if_true]
    rfl
  · simp only [unpackIndex, State.withRom_cnt, State.withRom_rsel, h, if_false]
    rfl

theorem decodeEnd_withRom : decodeEnd (s.withRom A) = (decodeEnd s).withRom A := by
  simp only [decodeEnd, apply_ite (State.withRom A)]
  rfl

theorem unpackEnd_withRom : unpackEnd (s.withRom A) = (unpackEnd s).withRom A := by
  simp only [unpackEnd, apply_ite (State.withRom A)]
  rfl

theorem decodeChecks_withRom : decodeChecks (s.withRom A) = (decodeChecks s).withRom A := by
  by_cases h : s.err = .noError
  · simp only [decodeChecks, State.withRom_err, h, if_true, decodeEnd_withRom, unpackEnd_withRom, apply_ite (State.withRom A)]
  · simp only [decodeChecks, State.withRom_err, h, if_false]

theorem decodePad_withRom : decodePad (s.withRom A) = (decodePad s).withRom A := by
  simp only [decodePad, apply_ite (State.withRom A)]
  rfl

theorem decodeIndex_withRom (i : Nat) : decodeIndex i (s.withRom A) = (decodeIndex i s).withRom A := by
  simp only [decodeIndex, unpackIndex_withRom, apply_ite (State.withRom A)]
  rfl

end

section
variable (A : Alphabet128) {s t : State}

/-- Emission with another codec selected does not read the radix-128 table. -/
theorem emitIndices_withRom (hr : s.rsel ≠ .radix128) (is : List Nat) :
    emitIndices is (s.withRom A) = (emitIndices is s).map fun p => (p.1, p.2.withRom A) := by
  induction is generalizing s with
  | nil => rfl
  | cons i is ih =>
    have hadv : (s.withRom A).advancePos = s.advancePos.withRom A := rfl
    simp only [emitIndices, hadv, ih (s := s.advancePos) hr, State.withRom_rom128, State.withRom_rsel,
      romI2S_congr hr A s.rom128]
    cases romI2S s.rom128 s.rsel i with
    | none => rfl
    | some c => cases emitIndices is s.advancePos <;> rfl

/-- PUTS in DEC with another codec selected does not read the radix-128 table. -/
theorem decodeSymbol_withRom (hr : s.rsel ≠ .radix128) (c : CodePoint) :
    decodeSymbol c (s.withRom A) = (decodeSymbol c s).withRom A := by
  by_cases he : s.err = .noError
  · simp only [decodeSymbol, State.withRom_err, State.withRom_rom128, State.withRom_rsel, he, romS2I_congr hr A s.rom128]
    cases romS2I s.rom128 s.rsel c with
    | unknown => rfl
    | pad => exact decodePad_withRom A s
    | sym i => exact decodeIndex_withRom A s i
  · simp only [decodeSymbol, State.withRom_err, ne_eq, he, not_false_eq_true, if_true]
    rfl

/-- A command with another codec selected does not read the radix-128 table. -/
theorem exec_withRom {i : Instr} (hr : s.rsel ≠ .radix128) (h : exec i s = .next t) :
    exec i (s.withRom A) = .next (t.withRom A) := by
  cases i with
  | cfg d r =>
    cases h
    rfl
  | putb b =>
    rcases execPutb_cases h with ⟨hp, rfl⟩ | ⟨hp, ds, s1, he, rfl⟩
    · exact execPutb_reject (s := s.withRom A) hp
    · simp only [exec, execPutb, State.withRom_phase, hp, encodeByte, packByte_withRom,
        emitIndices_withRom A (s := (packByte b s).2) hr, he, Option.map_some]
      rfl
  | puts c =>
    rcases execPuts_cases h with ⟨hp, rfl⟩ | ⟨hp, rfl⟩
    · exact execPuts_reject (s := s.withRom A) hp
    · simp only [exec, execPuts, State.withRom_phase, hp, decodeSymbol_withRom A hr]
  | fin =>
    rcases execFin_cases h with ⟨hp, rfl⟩ | ⟨hp, ds, s1, he, rfl⟩ | ⟨hp, rfl⟩
    · exact execFin_reject (s := s.withRom A) hp
    · obtain ⟨-, hrsel, -⟩ := packTail_frame s
      simp only [exec, execFin, State.withRom_phase, hp, finishEncode, packTail_withRom,
        emitIndices_withRom A (s := (packTail s).2) (hrsel ▸ hr), he, Option.map_some]
      rfl
    · simp only [exec, execFin, State.withRom_phase, hp, finishDecode, decodeChecks_withRom]
      rfl

/-- A step with another codec selected does not read the radix-128 table. -/
theorem step_withRom (hr : s.rsel ≠ .radix128) (h : step s = .next t) : step (s.withRom A) = .next (t.withRom A) := by
  rcases step_cases h with ⟨hin, rfl⟩ | ⟨xs, hin, rfl⟩ | ⟨w, xs, i, hin, hd, hexec⟩ | ⟨w, xs, e, hin, hd, rfl⟩
  · exact step_of_nothing_presented (s := t.withRom A) hin
  · exact step_of_reset (s := s.withRom A) hin
  · rw [step_of_decode (s := s.withRom A) hin hd]
    exact exec_withRom A (s := { s with inputs := xs }) hr hexec
  · exact step_of_illegal (s := s.withRom A) hin hd

end

/-- Settles O49: the table stands in the state, and the step commutes with replacing it. -/
theorem otherCodecsIgnoreAlphabet128 : Obligations.OtherCodecsIgnoreAlphabet128 :=
  fun _ _ A hr h => step_withRom A hr h

end Sys2Proof.Machine
end


section
/-! SUPPORT. The command words of `30_encoding.md`: a word as the number its fields make, the decoder format by format (R65), the round
trip of encoder and decoder (R61 to R66), and the words of assembly (R71). -/

namespace Sys2Proof

/-! ### A word and its fields, as numbers -/

/-- A field in numbers (R10). -/
theorem wordField_toNat (w : Word) (lo n : Nat) : (wordField w lo n).toNat = w.toNat / 2 ^ lo % 2 ^ n := by
  rw [wordField, BitVec.extractLsb'_toNat, Nat.shiftRight_eq_div_pow]

/-- Concatenation in numbers (R10). -/
theorem toNat_append_eq {m n : Nat} (x : BitVec m) (y : BitVec n) : (x ++ y).toNat = x.toNat * 2 ^ n + y.toNat := by
  rw [BitVec.toNat_append, ← Nat.shiftLeft_add_eq_or_of_lt y.isLt, Nat.shiftLeft_eq]

/-- A word is its opcode, the bits above the operand and the operand, from bit 31 down (R60). -/
theorem word_toNat_eq_fields (w : Word) {lo : Nat} (hlo : lo ≤ 28) :
    w.toNat = (opcodeOf w).toNat * 2 ^ 28 + (wordField w lo (28 - lo)).toNat * 2 ^ lo + (wordField w 0 lo).toNat := by
  have hop : (opcodeOf w).toNat = w.toNat / 2 ^ 28 := by
    have hw := w.isLt
    rw [opcodeOf, wordField_toNat]
    omega
  have hrest : w.toNat % 2 ^ 28 = (wordField w 0 lo).toNat + 2 ^ lo * (wordField w lo (28 - lo)).toNat := by
    rw [wordField_toNat, wordField_toNat, pow_zero, Nat.div_one, ← Nat.mod_mul, ← Nat.pow_add, Nat.add_sub_cancel' hlo]
  rw [hop, Nat.mul_comm _ (2 ^ lo)]
  omega

/-- The number of a word with an operand of `lo` bits and zeros above it up to the opcode is the opcode and the operand alone. -/
theorem word_toNat_eq_iff {w : Word} {op lo x : Nat} (hlo : lo ≤ 28) (hx : x < 2 ^ lo) :
    w.toNat = op * 2 ^ 28 + x ↔
      (opcodeOf w).toNat = op ∧ (wordField w lo (28 - lo)).toNat = 0 ∧ (wordField w 0 lo).toNat = x := by
  constructor
  · intro h
    have hx28 : x < 2 ^ 28 := hx.trans_le (Nat.pow_le_pow_right (by decide) hlo)
    have hw := w.isLt
    have hop : (opcodeOf w).toNat = op := by
      rw [opcodeOf, wordField_toNat]
      omega
    have hlow : (wordField w 0 lo).toNat = x := by
      rw [wordField_toNat, pow_zero, Nat.div_one, h, ← Nat.add_sub_cancel' hlo, Nat.pow_add, Nat.mul_left_comm,
        Nat.mul_add_mod, Nat.mod_eq_of_lt hx]
    have hsum := word_toNat_eq_fields w hlo
    have hmid : (wordField w lo (28 - lo)).toNat * 2 ^ lo = 0 := by rw [hop, hlow] at hsum; omega
    exact ⟨hop, (Nat.mul_eq_zero.mp hmid).resolve_right (Nat.two_pow_pos lo).ne', hlow⟩
  · rintro ⟨hop, hmid, hlow⟩
    rw [word_toNat_eq_fields w hlo, hop, hmid, hlow, Nat.zero_mul, Nat.add_zero]

/-! ### The number of each command's word (R61 to R64) -/

/-- CFG's operand is DIR and then RSEL. -/
theorem encode_cfg_toNat (d : Dir) (r : Rsel) :
    (encode (.cfg d r)).toNat = 1 * 2 ^ 28 + (codeOfDir d ++ codeOfRsel r).toNat := by
  cases d <;> cases r <;> rfl

theorem encode_putb_toNat (b : Byte) : (encode (.putb b)).toNat = 2 * 2 ^ 28 + b.toNat :=
  toNat_append_eq (0x2#4 ++ 0#20) b

theorem encode_puts_toNat (c : CodePoint) : (encode (.puts c)).toNat = 3 * 2 ^ 28 + c.toNat :=
  toNat_append_eq (0x3#4 ++ 0#7) c

theorem encode_fin_toNat : (encode .fin).toNat = 4 * 2 ^ 28 + 0 := rfl

/-! ### The decoder, format by format (R65) -/

theorem decode_of_cfg_format {w : Word} (hop : opcodeOf w = 1) (hres : wordField w 3 25 = 0) :
    decode w = .ok (.cfg (dirOfCode (wordField w 2 1)) (rselOfCode (wordField w 0 2))) := by
  simp [decode, hop, hres]

theorem decode_of_putb_format {w : Word} (hop : opcodeOf w = 2) (hres : wordField w 8 20 = 0) :
    decode w = .ok (.putb (wordField w 0 8)) := by
  simp [decode, hop, hres]

theorem decode_of_puts_format {w : Word} (hop : opcodeOf w = 3) (hres : wordField w 21 7 = 0) :
    decode w = .ok (.puts (wordField w 0 21)) := by
  simp [decode, hop, hres]

theorem decode_of_fin_format {w : Word} (hop : opcodeOf w = 4) (hres : wordField w 0 28 = 0) : decode w = .ok .fin := by
  simp [decode, hop, hres]

/-- A word of none of the formats is ILLEGAL. -/
theorem decode_of_no_format {w : Word} (hcfg : opcodeOf w = 1 → wordField w 3 25 ≠ 0)
    (hputb : opcodeOf w = 2 → wordField w 8 20 ≠ 0) (hputs : opcodeOf w = 3 → wordField w 21 7 ≠ 0)
    (hfin : opcodeOf w = 4 → wordField w 0 28 ≠ 0) : ∃ e, decode w = .error e := by
  by_cases h1 : opcodeOf w = 1
  · exact ⟨.reservedBits, by rw [decode, if_pos h1, if_neg (hcfg h1)]⟩
  by_cases h2 : opcodeOf w = 2
  · exact ⟨.reservedBits, by rw [decode, if_neg h1, if_pos h2, if_neg (hputb h2)]⟩
  by_cases h3 : opcodeOf w = 3
  · exact ⟨.reservedBits, by rw [decode, if_neg h1, if_neg h2, if_pos h3, if_neg (hputs h3)]⟩
  by_cases h4 : opcodeOf w = 4
  · exact ⟨.reservedBits, by rw [decode, if_neg h1, if_neg h2, if_neg h3, if_pos h4, if_neg (hfin h4)]⟩
  · exact ⟨.unassignedOpcode, by rw [decode, if_neg h1, if_neg h2, if_neg h3, if_neg h4]⟩

/-- Everything the decoder can do: the word is of one of the four formats, or of none and ILLEGAL. -/
theorem decode_cases (w : Word) :
    (opcodeOf w = 1 ∧ wordField w 3 25 = 0 ∧
      decode w = .ok (.cfg (dirOfCode (wordField w 2 1)) (rselOfCode (wordField w 0 2)))) ∨
    (opcodeOf w = 2 ∧ wordField w 8 20 = 0 ∧ decode w = .ok (.putb (wordField w 0 8))) ∨
    (opcodeOf w = 3 ∧ wordField w 21 7 = 0 ∧ decode w = .ok (.puts (wordField w 0 21))) ∨
    (opcodeOf w = 4 ∧ wordField w 0 28 = 0 ∧ decode w = .ok .fin) ∨
    ((opcodeOf w = 1 → wordField w 3 25 ≠ 0) ∧ (opcodeOf w = 2 → wordField w 8 20 ≠ 0) ∧
      (opcodeOf w = 3 → wordField w 21 7 ≠ 0) ∧ (opcodeOf w = 4 → wordField w 0 28 ≠ 0) ∧
      ∃ e, decode w = .error e) := by
  by_cases hcfg : opcodeOf w = 1 ∧ wordField w 3 25 = 0
  · exact .inl ⟨hcfg.1, hcfg.2, decode_of_cfg_format hcfg.1 hcfg.2⟩
  by_cases hputb : opcodeOf w = 2 ∧ wordField w 8 20 = 0
  · exact .inr (.inl ⟨hputb.1, hputb.2, decode_of_putb_format hputb.1 hputb.2⟩)
  by_cases hputs : opcodeOf w = 3 ∧ wordField w 21 7 = 0
  · exact .inr (.inr (.inl ⟨hputs.1, hputs.2, decode_of_puts_format hputs.1 hputs.2⟩))
  by_cases hfin : opcodeOf w = 4 ∧ wordField w 0 28 = 0
  · exact .inr (.inr (.inr (.inl ⟨hfin.1, hfin.2, decode_of_fin_format hfin.1 hfin.2⟩)))
  · rw [not_and] at hcfg hputb hputs hfin
    exact .inr (.inr (.inr (.inr ⟨hcfg, hputb, hputs, hfin, decode_of_no_format hcfg hputb hputs hfin⟩)))

/-- The decoder answers ILLEGAL exactly on the words of no format. -/
theorem decode_eq_error_iff {w : Word} :
    (∃ e, decode w = .error e) ↔
      (opcodeOf w = 1 → wordField w 3 25 ≠ 0) ∧ (opcodeOf w = 2 → wordField w 8 20 ≠ 0) ∧
        (opcodeOf w = 3 → wordField w 21 7 ≠ 0) ∧ (opcodeOf w = 4 → wordField w 0 28 ≠ 0) := by
  constructor
  · rintro ⟨e, he⟩
    refine ⟨fun hop hres => ?_, fun hop hres => ?_, fun hop hres => ?_, fun hop hres => ?_⟩
    · cases he.symm.trans (decode_of_cfg_format hop hres)
    · cases he.symm.trans (decode_of_putb_format hop hres)
    · cases he.symm.trans (decode_of_puts_format hop hres)
    · cases he.symm.trans (decode_of_fin_format hop hres)
  · rintro ⟨hcfg, hputb, hputs, hfin⟩
    exact decode_of_no_format hcfg hputb hputs hfin

/-! ### The operands of CFG and their codes (R61) -/

theorem codeOfDir_dirOfCode (b : BitVec 1) : codeOfDir (dirOfCode b) = b := by revert b; decide

theorem codeOfRsel_rselOfCode (b : BitVec 2) : codeOfRsel (rselOfCode b) = b := by revert b; decide

/-- Bits 2:0 of a word are its bit 2 and then bits 1:0, DIR and RSEL of CFG. -/
theorem cfg_operand_eq (w : Word) : wordField w 0 3 = wordField w 2 1 ++ wordField w 0 2 := by
  apply BitVec.eq_of_toNat_eq
  rw [toNat_append_eq, wordField_toNat, wordField_toNat, wordField_toNat]
  omega

/-- The direction by bit 2 of the word. -/
theorem dirOfCode_wordField (w : Word) : dirOfCode (wordField w 2 1) = if w.getLsbD 2 then .decode else .encode := by
  have hbit : w.getLsbD 2 = (wordField w 2 1).getLsbD 0 := by simp [wordField]
  rw [hbit]
  generalize wordField w 2 1 = b
  revert b
  decide

/-! ### The round trip -/

/-- Settles O2: the number of the command's word fixes its opcode, its reserved bits and its operand. -/
theorem decodeOfEncodeIsTheCommand : Obligations.DecodeOfEncodeIsTheCommand := by
  intro i
  cases i with
  | cfg d r => exact Machine.decode_encode_cfg d r
  | putb b =>
    obtain ⟨hop, hres, hb⟩ := (word_toNat_eq_iff (by decide) b.isLt).mp (encode_putb_toNat b)
    rw [decode_of_putb_format (BitVec.eq_of_toNat_eq hop) (BitVec.eq_of_toNat_eq hres), BitVec.eq_of_toNat_eq hb]
  | puts c =>
    obtain ⟨hop, hres, hc⟩ := (word_toNat_eq_iff (by decide) c.isLt).mp (encode_puts_toNat c)
    rw [decode_of_puts_format (BitVec.eq_of_toNat_eq hop) (BitVec.eq_of_toNat_eq hres), BitVec.eq_of_toNat_eq hc]
  | fin => rfl

/-- Settles O3: the opcode, the zero reserved bits and the operand of the format give back the word's number. -/
theorem encodeOfDecodedIsTheWord : Obligations.EncodeOfDecodedIsTheWord := by
  intro w i h
  apply BitVec.eq_of_toNat_eq
  rcases decode_cases w with ⟨hop, hres, hd⟩ | ⟨hop, hres, hd⟩ | ⟨hop, hres, hd⟩ | ⟨hop, hres, hd⟩ |
    ⟨-, -, -, -, e, hd⟩ <;> cases hd.symm.trans h
  · rw [encode_cfg_toNat, codeOfDir_dirOfCode, codeOfRsel_rselOfCode, ← cfg_operand_eq,
      word_toNat_eq_fields w (lo := 3) (by decide), hop, hres]
    rfl
  · rw [encode_putb_toNat, word_toNat_eq_fields w (lo := 8) (by decide), hop, hres]
    rfl
  · rw [encode_puts_toNat, word_toNat_eq_fields w (lo := 21) (by decide), hop, hres]
    rfl
  · rw [encode_fin_toNat, word_toNat_eq_fields w (lo := 0) (by decide), hop, hres,
      BitVec.toNat_of_zero_length rfl]
    rfl

/-- RSEL by the number of bits 1:0 of the word. -/
theorem rselOfCode_eq (b : BitVec 2) :
    rselOfCode b = (match b.toNat with
      | 0 => .radix64
      | 1 => .radix32
      | 2 => .radix16
      | _ => .radix128) := by
  revert b
  decide

/-- Settles O1: the fields of R65 are the decoder's, and ILLEGAL is what is left beside the four formats. -/
theorem decodeFollowsTheFormats : Obligations.DecodeFollowsTheFormats := by
  intro w
  refine ⟨fun hop hres => ?_, fun hop hres => decode_of_putb_format (BitVec.eq_of_toNat_eq hop) (BitVec.eq_of_toNat_eq hres),
    fun hop hres => decode_of_puts_format (BitVec.eq_of_toNat_eq hop) (BitVec.eq_of_toNat_eq hres),
    fun hop hres => decode_of_fin_format (BitVec.eq_of_toNat_eq hop) (BitVec.eq_of_toNat_eq hres), ?_⟩
  · rw [decode_of_cfg_format (BitVec.eq_of_toNat_eq hop) (BitVec.eq_of_toNat_eq hres), dirOfCode_wordField, rselOfCode_eq]
    rfl
  · have hlt := (opcodeOf w).isLt
    rw [decode_eq_error_iff]
    change _ ↔ (opcodeOf w).toNat = 0 ∨ 5 ≤ (opcodeOf w).toNat ∨
      ((opcodeOf w).toNat = 1 ∧ (wordField w 3 25).toNat ≠ 0) ∨ ((opcodeOf w).toNat = 2 ∧ (wordField w 8 20).toNat ≠ 0) ∨
      ((opcodeOf w).toNat = 3 ∧ (wordField w 21 7).toNat ≠ 0) ∨ ((opcodeOf w).toNat = 4 ∧ (wordField w 0 28).toNat ≠ 0)
    simp only [ne_eq, BitVec.toNat_eq, BitVec.toNat_ofNat, BitVec.ofNat_eq_ofNat]
    omega

/-! ### The opcode table (R70) -/

/-- A field whose bits a mask keeps is the masked word's field. -/
theorem wordField_of_masked {w mask value : Word} {lo n : Nat} (hmask : wordField mask lo n = BitVec.allOnes n)
    (h : w &&& mask = value) : wordField w lo n = wordField value lo n := by
  rw [wordField] at hmask
  rw [← h, wordField, wordField, BitVec.extractLsb'_and, hmask, BitVec.and_allOnes]

/-- A legal word is of one row of the table, by its mask and match. -/
theorem wordWf_iff {w : Word} :
    wordWf w = true ↔ w &&& 0xFFFFFFF8#32 = 0x10000000#32 ∨ w &&& 0xFFFFFF00#32 = 0x20000000#32 ∨
      w &&& 0xFFE00000#32 = 0x30000000#32 ∨ w &&& 0xFFFFFFFF#32 = 0x40000000#32 := by
  simp [wordWf, opcodeRows, OpcodeRow.holds]

/-- A word of the table decodes: the masks keep the opcode and the reserved bits. -/
theorem decode_of_wordWf {w : Word} (h : wordWf w = true) : ∃ i, decode w = .ok i := by
  rcases wordWf_iff.mp h with h | h | h | h
  · exact ⟨_, decode_of_cfg_format (wordField_of_masked (by decide) h) (wordField_of_masked (by decide) h)⟩
  · exact ⟨_, decode_of_putb_format (wordField_of_masked (by decide) h) (wordField_of_masked (by decide) h)⟩
  · exact ⟨_, decode_of_puts_format (wordField_of_masked (by decide) h) (wordField_of_masked (by decide) h)⟩
  · exact ⟨_, decode_of_fin_format (wordField_of_masked (by decide) h) (wordField_of_masked (by decide) h)⟩

/-- The word of every command is in the table. -/
theorem wordWf_encode (i : Instr) : wordWf (encode i) = true := by
  cases i with
  | cfg d r => exact (Laws.EncodedWord.cfg d r).2
  | putb b => exact (Laws.EncodedWord.putb b).2
  | puts c => exact (Laws.EncodedWord.puts c).2
  | fin => exact Laws.EncodedWord.fin.2

/-- Settles O4: a word that decodes is the word of its command, and a word of the table is of one of the formats. -/
theorem decodeAcceptsExactlyTableWords : Obligations.DecodeAcceptsExactlyTableWords := by
  intro w
  constructor
  · rintro ⟨i, hi⟩
    exact encodeOfDecodedIsTheWord w i hi ▸ wordWf_encode i
  · exact decode_of_wordWf

/-- Settles O5: each word is in R71's table, or of opcode 0. -/
theorem specWordsDecode : Obligations.SpecWordsDecode := by
  unfold Obligations.SpecWordsDecode
  decide

/-! ### Assembly (R71) -/

theorem encode_putb_eq {b : Nat} (hb : b < 256) : encode (.putb (BitVec.ofNat 8 b)) = BitVec.ofNat 32 (0x20000000 + b) := by
  apply BitVec.eq_of_toNat_eq
  rw [encode_putb_toNat, BitVec.toNat_ofNat, BitVec.toNat_ofNat, Nat.mod_eq_of_lt hb, Nat.mod_eq_of_lt (by omega)]
  omega

theorem encode_puts_eq {c : Nat} (hc : c < 2 ^ 21) :
    encode (.puts (BitVec.ofNat 21 c)) = BitVec.ofNat 32 (0x30000000 + c) := by
  apply BitVec.eq_of_toNat_eq
  rw [encode_puts_toNat, BitVec.toNat_ofNat, BitVec.toNat_ofNat, Nat.mod_eq_of_lt hc, Nat.mod_eq_of_lt (by omega)]
  omega

end Sys2Proof

namespace Sys2Proof.Machine

/-- A line whose numbers fit denotes its words. -/
theorem assemble_of_wf {l : AsmLine} (h : l.wf = true) : assemble l = some l.words := if_pos h

/-- A line with a number that does not fit denotes none (log entry 17). -/
theorem assemble_of_not_wf {l : AsmLine} (h : l.wf = false) : assemble l = none := if_neg (by simp [h])

/-- Settles O6: in range each command's word is its opcode and operand as one number, and out of range a line is not well-formed. -/
theorem assemblerWords : Obligations.AssemblerWords := by
  refine ⟨fun r d => ?_, fun b hb => ?_, fun b hb => ?_, fun c hc => ?_, fun c hc => ?_, rfl, fun w => rfl, fun r bs hbs => ?_,
    fun r cs hcs => ?_⟩
  · cases r <;> cases d <;> rfl
  · rw [assemble_of_wf (l := .putb b) (decide_eq_true hb), AsmLine.words, encode_putb_eq hb]
  · exact assemble_of_not_wf (decide_eq_false (Nat.not_lt.mpr hb))
  · rw [assemble_of_wf (l := .puts c) (decide_eq_true hc), AsmLine.words, encode_puts_eq hc]
  · exact assemble_of_not_wf (decide_eq_false (Nat.not_lt.mpr hc))
  · rw [assemble_of_wf (by simpa [AsmLine.wf] using hbs), AsmLine.words,
      List.map_congr_left fun b hb => encode_putb_eq (hbs b hb)]
    rfl
  · rw [assemble_of_wf (by simpa [AsmLine.wf] using hcs), AsmLine.words,
      List.map_congr_left fun c hc => encode_puts_eq (hcs c hc)]
    rfl

/-! ### The words of a response (R67, R68) -/

/-- A header in numbers: PHASE from bit 8, NOUT from bit 4, STATUS from bit 0. -/
theorem responseHeader_toNat (a : Response) :
    (responseHeader a).toNat =
      (phaseCode a.phase).toNat * 2 ^ 8 + a.data.length % 8 * 2 ^ 4 + (statusCode a.status).toNat := by
  simp only [responseHeader, toNat_append_eq, BitVec.toNat_ofNat]
  omega

/-- The number of each phase (R21). -/
theorem phaseCode_toNat (p : Phase) : (phaseCode p).toNat = (match p with | .idle => 0 | .enc => 1 | .dec => 2) := by
  cases p <;> rfl

/-- The number of each status (R68). -/
theorem statusCode_toNat (st : Status) :
    (statusCode st).toNat = (match st with
      | .ok => 0
      | .invalidSymbol => 1
      | .malformedLength => 2
      | .malformedPadding => 3
      | .nonZeroTrailingBits => 4
      | .illegalCommand => 5) := by
  cases st <;> rfl

/-- Zeros above do not change a number, so a data word has its value's (R67). -/
theorem toNat_zero_append {m n : Nat} (x : BitVec n) : (0#m ++ x).toNat = x.toNat := by
  rw [toNat_append_eq, BitVec.toNat_ofNat, Nat.zero_mod, Nat.zero_mul, Nat.zero_add]

/-- Settles O7: the fields of the header are the digits of its number, and NOUT has three bits. -/
theorem responseWordsFollowTheFormat : Obligations.ResponseWordsFollowTheFormat := by
  refine ⟨fun a ha => ?_, fun c => ?_, fun b => ?_⟩
  · have hnum := responseHeader_toNat a
    have hphase := (phaseCode a.phase).isLt
    have hstatus := (statusCode a.status).isLt
    rw [Nat.mod_eq_of_lt (by omega)] at hnum
    have hbit : ∀ i, (responseHeader a).getLsbD i = decide ((responseHeader a).toNat / 2 ^ i % 2 = 1) :=
      fun i => Nat.testBit_eq_decide_div_mod_eq
    simp only [BitVec.extractLsb_toNat, Nat.shiftRight_eq_div_pow, hbit, hnum]
    refine ⟨rfl, by omega, Eq.trans (by omega) (phaseCode_toNat a.phase), decide_eq_false (by omega), by omega,
      decide_eq_false (by omega), Eq.trans (by omega) (statusCode_toNat a.status)⟩
  · exact toNat_zero_append c
  · exact toNat_zero_append b

end Sys2Proof.Machine
end

section
/-! SUPPORT. How many values each command emits (`30_encoding.md` R69). -/

namespace Sys2Proof.Machine

/-- A response carries the values it was given (R67). -/
theorem answerCount_respond (st : Status) (ds : List Datum) (s : State) :
    answerCount (.next (s.respond st ds)) = some ds.length := by
  simp [answerCount, lastAnswer]

theorem answerCount_closeConversion (st : Status) (ds : List Datum) (s : State) :
    answerCount (.next (closeConversion st ds s)) = some ds.length := answerCount_respond st ds _

/-! ### PUTB and PUTS -/

/-- PUTB in ENC emits one value for each index of PackByte. -/
theorem answerCount_putb {s : State} (hp : s.phase = .enc) (hres : s.ReservoirOk) (b : Byte) :
    answerCount (exec (.putb b) s) = some (packByte b s).1.length := by
  have hlt : ∀ i ∈ (packByte b s).1, i < alphabetSize (packByte b s).2.rsel := packByte_lt hres
  obtain ⟨ds, s1, he⟩ := emitIndices_of_lt (packByte b s).2 hlt
  simp only [exec, execPutb, hp, encodeByte, he, answerCount_respond, emitIndices_length he]

/-- PackByte takes every whole symbol of the bits held and 8 more (R81). -/
theorem packByte_length {s : State} (hres : s.ReservoirOk) (b : Byte) :
    (packByte b s).1.length = (s.cnt.toNat + 8) / width s.rsel := by
  obtain ⟨-, hleft⟩ := packByte_reservoir (b := b) hres
  rw [← packByte_count b s, Nat.mul_comm, Nat.mul_add_div (Nat.zero_lt_of_lt hleft), Nat.div_eq_of_lt hleft, Nat.add_zero]

/-- UnpackIndex takes at most one byte (R85, R86). -/
theorem unpackIndex_length_le_one (i : Nat) (s : State) : (unpackIndex i s).1.length ≤ 1 := by
  rcases unpackIndex_cases i s with ⟨-, e⟩ | ⟨-, e⟩ <;> rw [e]
  · exact Nat.zero_le 1
  · exact Nat.le_refl 1

/-- PUTS in DEC emits at most one byte (R69). -/
theorem answerCount_decodeSymbol (c : CodePoint) (s : State) :
    ∃ n, answerCount (.next (decodeSymbol c s)) = some n ∧ n ≤ 1 := by
  rcases decodeSymbol_cases c s with ⟨-, e⟩ | ⟨-, -, e⟩ | ⟨-, -, -, e⟩ | ⟨-, -, -, e⟩ | ⟨i, -, -, -, e⟩ | ⟨i, -, -, -, e⟩ <;>
    rw [e]
  on_goal 6 =>
    refine ⟨_, answerCount_respond _ _ _, ?_⟩
    rw [List.length_map]
    exact unpackIndex_length_le_one i s
  all_goals exact ⟨0, answerCount_respond _ _ _, Nat.zero_le 1⟩

/-! ### FIN in ENC -/

theorem packTail_length (s : State) : (packTail s).1.length = if s.cnt.toNat = 0 then 0 else 1 := by
  rcases packTail_cases s with ⟨h, e⟩ | ⟨h, e⟩ <;> simp [e, h]

theorem padOut_length_eq (s : State) :
    (padOut s).1.length = if padded s.rsel = true then (blockSymbols s.rsel - s.pos.toNat) % blockSymbols s.rsel else 0 := by
  by_cases h : padded s.rsel = true <;> simp [padOut, h]

/-- The tail symbol, if bits are pending, and then the pads that complete the block (R83, R121). -/
def finValues (r : Rsel) (cnt pos : Nat) : Nat :=
  let tail := if cnt = 0 then 0 else 1
  tail + if padded r = true then (blockSymbols r - (pos + tail) % blockSymbols r) % blockSymbols r else 0

/-- FIN in ENC emits the tail symbol and the pads (R154). -/
theorem answerCount_fin_enc {s : State} (hp : s.phase = .enc) (hres : s.ReservoirOk) (hcnt : s.cnt.toNat < width s.rsel)
    (hpos : s.pos.toNat < blockSymbols s.rsel) :
    answerCount (exec .fin s) = some (finValues s.rsel s.cnt.toNat s.pos.toNat) := by
  obtain ⟨-, hrsel, hpos', -⟩ := packTail_frame s
  obtain ⟨ds, s1, he⟩ := emitIndices_of_lt (packTail s).2 (hrsel ▸ packTail_lt hres hcnt)
  obtain rfl := emitIndices_pos he (by rwa [hrsel, hpos'])
  have hfit := Nat.lt_of_lt_of_le (Nat.mod_lt (s.pos.toNat + (packTail s).1.length) (blockSymbols_pos s.rsel))
    (blockSymbols_le_eight s.rsel)
  rw [finValues, ← packTail_length]
  simp only [exec, execFin, hp, finishEncode, he, answerCount_closeConversion, List.length_append, emitIndices_length he,
    padOut_length_eq, State.setPos_rsel, State.setPos_pos, hrsel, hpos', BitVec.toNat_ofNat, Nat.mod_eq_of_lt hfit]

/-- The most values FIN emits in ENC (R69). -/
def finMost : Rsel → Nat
  | .radix64  => 3
  | .radix32  => 7
  | .radix16  => 0
  | .radix128 => 1

/-- After each number of bytes of a block, tail and pads are at most R69's count. -/
theorem finValues_le_finMost (r : Rsel) :
    ∀ n < blockBytes r, finValues r (8 * n % width r) (8 * n / width r % blockSymbols r) ≤ finMost r := by
  cases r <;> decide

/-- In ENC fewer than W bits are pending and POS is inside the block (R24, R25). -/
theorem encodeOk_bounds {s : State} (h : s.EncodeOk) : s.cnt.toNat < width s.rsel ∧ s.pos.toNat < blockSymbols s.rsel := by
  obtain ⟨-, -, n, -, hcnt, hpos⟩ := h
  have hW := width_ge_four s.rsel
  exact ⟨hcnt ▸ Nat.mod_lt _ (by omega), hpos ▸ Nat.mod_lt _ (blockSymbols_pos _)⟩

/-- In ENC a byte completes one symbol or two, in radix-16 two (R69, R82). -/
theorem symbols_of_next_byte {s : State} (h : s.EncodeOk) :
    (s.cnt.toNat + 8) / width s.rsel = 2 ∨ ((s.cnt.toNat + 8) / width s.rsel = 1 ∧ s.rsel ≠ .radix16) := by
  obtain ⟨-, -, n, -, hcnt, -⟩ := h
  rw [hcnt]
  cases s.rsel <;> simp only [width, ne_eq, not_false_eq_true, and_true, reduceCtorEq] <;> omega

/-- Settles O45: each command's values are counted by its own lemma, and the counts are bounded codec by codec. -/
theorem responseCountsByCommand : Obligations.ResponseCountsByCommand := by
  rintro s ⟨-, hres, hphase⟩
  refine ⟨fun d r => answerCount_respond _ _ _, fun hp b => ?_, fun hp c => ?_, fun hp => ?_, fun hp => ?_,
    answerCount_respond _ _ _⟩
  · rw [answerCount_putb hp hres, packByte_length hres, Option.some.injEq, Option.some.injEq]
    exact symbols_of_next_byte ((phaseOk_enc hp).mp hphase)
  · obtain ⟨n, hn, hle⟩ := answerCount_decodeSymbol c s
    have hexec : exec (.puts c) s = .next (decodeSymbol c s) := by simp only [exec, execPuts, hp]
    rw [hexec, hn, Option.some.injEq, Option.some.injEq]
    omega
  · have henc := (phaseOk_enc hp).mp hphase
    obtain ⟨hcnt, hpos⟩ := encodeOk_bounds henc
    obtain ⟨-, -, n, hn, hcnt', hpos'⟩ := henc
    exact ⟨_, answerCount_fin_enc hp hres hcnt hpos, hcnt' ▸ hpos' ▸ finValues_le_finMost s.rsel n hn⟩
  · simp only [exec, execFin, hp, finishDecode]
    exact answerCount_closeConversion _ _ _

end Sys2Proof.Machine
end

section
/-! SUPPORT. The reservoir at work (`40_bit_reservoir.md`): what PUTB, PUTS and FIN answer, as exact next states, and that the reservoir
is empty again after every whole block (R90). -/

namespace Sys2Proof.Machine

/-! ### PackByte: one index or two -/

/-- With fewer than W bits there is nothing left to take. -/
theorem packLoop_of_lt {w c : Nat} (rounds t : Nat) (h : c < w) : packLoop w rounds t c = ([], t, c) := by
  cases rounds with
  | zero => rfl
  | succ rounds => simp only [packLoop, if_neg (Nat.not_le.mpr h)]

/-- With W bits or more, the oldest W are the next index (R81). -/
theorem packLoop_of_le {w c : Nat} (rounds t : Nat) (h : w ≤ c) :
    packLoop w (rounds + 1) t c =
      (t / 2 ^ (c - w) :: (packLoop w rounds (t % 2 ^ (c - w)) (c - w)).1,
        (packLoop w rounds (t % 2 ^ (c - w)) (c - w)).2) := by
  simp only [packLoop, if_pos h, Nat.shiftRight_eq_div_pow]

/-- PackByte with fewer than 2·W bits there takes one index. -/
theorem packByte_one {b : Byte} {s : State} (h : s.cnt.toNat + 8 < 2 * width s.rsel) :
    packByte b s =
      ([(s.acc.toNat * 256 + b.toNat) / 2 ^ (s.cnt.toNat + 8 - width s.rsel)],
        s.setReservoir ((s.acc.toNat * 256 + b.toNat) % 2 ^ (s.cnt.toNat + 8 - width s.rsel))
          (s.cnt.toNat + 8 - width s.rsel)) := by
  have hw := width_le_seven s.rsel
  rw [packByte_eq, packLoop_of_le _ _ (by omega), packLoop_of_lt _ _ (by omega)]

/-- PackByte with 2·W bits or more there, but fewer than 3·W, takes two indices. -/
theorem packByte_two {b : Byte} {s : State} (hc : s.cnt.toNat < width s.rsel) (h : 2 * width s.rsel ≤ s.cnt.toNat + 8) :
    packByte b s =
      ([(s.acc.toNat * 256 + b.toNat) / 2 ^ (s.cnt.toNat + 8 - width s.rsel),
        (s.acc.toNat * 256 + b.toNat) % 2 ^ (s.cnt.toNat + 8 - width s.rsel) / 2 ^ (s.cnt.toNat + 8 - 2 * width s.rsel)],
        s.setReservoir ((s.acc.toNat * 256 + b.toNat) % 2 ^ (s.cnt.toNat + 8 - 2 * width s.rsel))
          (s.cnt.toNat + 8 - 2 * width s.rsel)) := by
  have hw := width_ge_four s.rsel
  have hsub : s.cnt.toNat + 8 - width s.rsel - width s.rsel = s.cnt.toNat + 8 - 2 * width s.rsel := by omega
  have hdvd : 2 ^ (s.cnt.toNat + 8 - 2 * width s.rsel) ∣ 2 ^ (s.cnt.toNat + 8 - width s.rsel) :=
    Nat.pow_dvd_pow 2 (by omega)
  rw [packByte_eq, packLoop_of_le _ _ (by omega), packLoop_of_le _ _ (by omega), packLoop_of_lt _ _ (by omega), hsub,
    Nat.mod_mod_of_dvd _ hdvd]

/-- After PackByte fewer than W bits are held, whatever ACC held (R82). -/
theorem packByte_cnt_lt (b : Byte) (s : State) : (packByte b s).2.cnt.toNat < width s.rsel := by
  have hc := s.cnt.isLt
  have hleft := packLoop_leaves_less_than_width s.rsel (s.acc.toNat * 256 + b.toNat) (c := s.cnt.toNat + 8) (by omega)
  rw [packByte_eq, State.setReservoir_cnt, BitVec.toNat_ofNat]
  exact (Nat.mod_le _ _).trans_lt hleft

/-- PackByte's indices and the bits it leaves are quotient and remainder of the bits there by W (R82). -/
theorem packByte_div_mod (b : Byte) (s : State) :
    (packByte b s).1.length = (s.cnt.toNat + 8) / width s.rsel ∧
      (packByte b s).2.cnt.toNat = (s.cnt.toNat + 8) % width s.rsel := by
  have hleft := packByte_cnt_lt b s
  rw [← packByte_count b s, Nat.mul_comm, Nat.mul_add_div (Nat.zero_lt_of_lt hleft), Nat.mul_add_mod,
    Nat.div_eq_of_lt hleft, Nat.mod_eq_of_lt hleft]
  exact ⟨rfl, rfl⟩

/-- Settles O19: the number of indices is the quotient, and 8 more bits than fewer than W are at least W and fewer than 3·W. -/
theorem packByteIndexCount : Obligations.PackByteIndexCount := by
  intro b s hc
  obtain ⟨hlen, hcnt⟩ := packByte_div_mod b s
  have hW := width_ge_four s.rsel
  have hW' := width_le_seven s.rsel
  have hpos : 0 < width s.rsel := by omega
  have one_le : 1 ≤ (s.cnt.toNat + 8) / width s.rsel := (Nat.le_div_iff_mul_le hpos).mpr (by omega)
  have lt_three : (s.cnt.toNat + 8) / width s.rsel < 3 := Nat.div_lt_of_lt_mul (by omega)
  have two_le : 2 ≤ (s.cnt.toNat + 8) / width s.rsel ↔ 2 * width s.rsel ≤ s.cnt.toNat + 8 :=
    Nat.le_div_iff_mul_le hpos
  rw [hlen]
  exact ⟨rfl, by omega, by omega, hcnt⟩

/-! ### PUTB -/

/-- One index emits its symbol and advances POS once. -/
theorem emitIndices_one {s : State} {i : Nat} {c : CodePoint} (h : romI2S s.rom128 s.rsel i = some c) :
    emitIndices [i] s = some ([.symbol c], s.advancePos) := by
  simp only [emitIndices, h]

/-- An index before others emits its symbol first. -/
theorem emitIndices_cons {is : List Nat} {s s' : State} {i : Nat} {c : CodePoint} {ds : List Datum}
    (h : romI2S s.rom128 s.rsel i = some c) (hrest : emitIndices is s.advancePos = some (ds, s')) :
    emitIndices (i :: is) s = some (.symbol c :: ds, s') := by
  simp only [emitIndices, h, hrest]

/-- PUTB in ENC, once its indices are emitted (R152). -/
theorem exec_putb_of_emit {b : Byte} {s s' : State} {ds : List Datum} (hp : s.phase = .enc)
    (h : emitIndices (packByte b s).1 (packByte b s).2 = some (ds, s')) : exec (.putb b) s = .next (s'.respond .ok ds) := by
  simp only [exec, execPutb, hp, encodeByte, h]

/-- POS advanced twice is POS advanced by 2. -/
theorem advancePos_advancePos (s : State) :
    s.advancePos.advancePos = s.setPos ((s.pos.toNat + 2) % blockSymbols s.rsel) := by
  have h : (s.advancePos.pos.toNat + 1) % blockSymbols s.rsel = (s.pos.toNat + 2) % blockSymbols s.rsel := by
    rw [advancePos_toNat, Nat.mod_add_mod]
  exact congrArg s.setPos h

/-- Settles O18: PackByte takes one index or two, both below N, so the table answers, and the response carries their symbols. -/
theorem putbPacksTheByte : Obligations.PutbPacksTheByte := by
  intro b s
  refine ⟨fun hp hres hc => ⟨fun hone => ?_, fun htwo => ?_⟩, fun hp => execPutb_reject hp⟩
  · have hpack := packByte_one (b := b) hone
    have hlt := packByte_lt (b := b) hres
    rw [hpack] at hlt
    obtain ⟨c0, h0⟩ := romI2S_of_lt s.rom128 s.rsel (hlt _ List.mem_cons_self)
    refine ⟨c0, h0, ?_⟩
    rw [exec_putb_of_emit hp (by rw [hpack]; exact emitIndices_one h0), ← hp]
    rfl
  · have hpack := packByte_two (b := b) hc htwo
    have hlt := packByte_lt (b := b) hres
    rw [hpack] at hlt
    obtain ⟨c0, h0⟩ := romI2S_of_lt s.rom128 s.rsel (hlt _ List.mem_cons_self)
    obtain ⟨c1, h1⟩ := romI2S_of_lt s.rom128 s.rsel (hlt _ (List.mem_cons_of_mem _ (List.mem_singleton_self _)))
    refine ⟨c0, c1, h0, h1, ?_⟩
    rw [exec_putb_of_emit hp (by rw [hpack]; exact emitIndices_cons h0 (emitIndices_one h1)), advancePos_advancePos, ← hp]
    rfl

/-! ### PUTS -/

/-- Settles O27: CNT + W is at most 14, so after one byte fewer than 8 bits are left. -/
theorem unpackIndexEmitsAtMostOneByte : Obligations.UnpackIndexEmitsAtMostOneByte := by
  intro idx s
  have hc := s.cnt.isLt
  have hw := width_le_seven s.rsel
  refine ⟨unpackIndex_length_le_one idx s, ?_⟩
  rcases unpackIndex_cases idx s with ⟨hlt, e⟩ | ⟨hge, e⟩
  · rw [e, State.setReservoir_cnt, BitVec.toNat_ofNat]
  · rw [e, State.setReservoir_cnt, BitVec.toNat_ofNat]
    omega

/-- The entries of every table are distinct: the fixed ones by inspection, ALPHABET128 by constraint (a) of R103. -/
theorem romTable_nodup {A : Alphabet128} (hA : A.Distinct) (t : Rsel) : (romTable A t).Nodup := by
  cases t with
  | radix64 => exact (by decide +kernel : table64.Nodup)
  | radix32 => exact (by decide +kernel : table32.Nodup)
  | radix16 => exact (by decide +kernel : table16.Nodup)
  | radix128 => exact hA

/-- RomS2I finds the index of what RomI2S answers (R106). -/
theorem romS2I_of_romI2S {A : Alphabet128} (hA : A.Distinct) {t : Rsel} {i : Nat} {c : CodePoint}
    (h : romI2S A t i = some c) : romS2I A t c = .sym i := by
  simp only [romS2I, indexIn_of_getElem? (romTable_nodup hA t) h]

/-- A table entry is classified as a symbol (R105). -/
theorem romS2I_of_mem {A : Alphabet128} {t : Rsel} {c : CodePoint} (h : c ∈ romTable A t) :
    ∃ i, romS2I A t c = .sym i := by
  cases hi : indexIn c (romTable A t) with
  | none => exact absurd h ((indexIn_eq_none_iff c _).mp hi)
  | some i => exact ⟨i, by simp only [romS2I, hi]⟩

/-- PUTS of a table symbol in DEC with neither error nor pad before it (R153). -/
theorem exec_puts_of_sym {c : CodePoint} {s : State} {i : Nat} (hp : s.phase = .dec) (he : s.err = .noError)
    (hpadf : s.padf = false) (h : romS2I s.rom128 s.rsel c = .sym i) :
    exec (.puts c) s = .next ((unpackIndex i s).2.advancePos.respond .ok ((unpackIndex i s).1.map .byte)) := by
  simp [exec, execPuts, hp, decodeSymbol, he, h, decodeIndex, hpadf]

/-- Settles O26: RomS2I gives back the index, and UnpackIndex's two cases are the two next states. -/
theorem putsUnpacksTheIndex : Obligations.PutsUnpacksTheIndex := by
  intro c idx s hp he hpadf hA hres hidx
  have hexec := exec_puts_of_sym hp he hpadf (romS2I_of_romI2S hA hidx)
  have hi : idx < 2 ^ width s.rsel := alphabetSize_eq_two_pow_width s.rsel ▸ (romI2S_some hidx).1
  rcases unpackIndex_cases idx s with ⟨hlt, e⟩ | ⟨hge, e⟩ <;> rw [e] at hexec
  · refine ⟨fun _ => ?_, fun hge => absurd hge (Nat.not_le.mpr hlt)⟩
    rw [hexec, ← hp]
    rfl
  · refine ⟨fun hlt => absurd hge (Nat.not_le.mpr hlt), fun _ => ⟨?_, ?_⟩⟩
    · rw [← Nat.shiftRight_eq_div_pow]
      exact top_bits_lt hge (append_index_lt hres hi)
    · rw [hexec, ← hp]
      rfl

/-! ### FIN -/

/-- FIN in ENC, once the tail is emitted (R154). -/
theorem exec_fin_of_emit {s s' : State} {tail : List Datum} (hp : s.phase = .enc)
    (h : emitIndices (packTail s).1 (packTail s).2 = some (tail, s')) :
    exec .fin s = .next (closeConversion .ok (tail ++ (padOut s').1) (padOut s').2) := by
  simp only [exec, execFin, hp, finishEncode, h]

/-- Settles O29: the tail index is below N, so the table answers, and PadOut completes the block the tail symbol stands in. -/
theorem finInEncEmitsTailAndPads : Obligations.FinInEncEmitsTailAndPads := by
  intro s hp hres hc _
  rcases packTail_cases s with ⟨hz, e⟩ | ⟨hnz, e⟩
  · refine ⟨fun _ => ?_, fun hnz => absurd hz hnz⟩
    exact exec_fin_of_emit hp (by rw [e]; rfl)
  · refine ⟨fun hz => absurd hz hnz, fun _ => ?_⟩
    have hlt := packTail_lt hres hc
    rw [e] at hlt
    obtain ⟨c, hsym⟩ := romI2S_of_lt s.rom128 s.rsel (hlt _ List.mem_cons_self)
    refine ⟨c, hsym, ?_⟩
    rw [exec_fin_of_emit hp (by rw [e]; exact emitIndices_one hsym), padOut, advancePos_toNat]
    rfl

/-- Everything the checks of FIN in DEC can do, in the order of R188. -/
theorem decodeChecks_cases (s : State) :
    (s.err ≠ .noError ∧ decodeChecks s = s) ∨
    (s.err = .noError ∧ s.padf = true ∧ s.pos.toNat ≠ 0 ∧ decodeChecks s = s.raise .malformedPadding) ∨
    (s.err = .noError ∧ s.padf = false ∧ s.pos.toNat ∉ validEnd s.rsel ∧ decodeChecks s = s.raise .malformedLength) ∨
    (s.err = .noError ∧ (s.padf = true → s.pos.toNat = 0) ∧ (s.padf = false → s.pos.toNat ∈ validEnd s.rsel) ∧
      s.acc.toNat ≠ 0 ∧ decodeChecks s = s.raise .nonZeroTrailingBits) ∨
    (s.err = .noError ∧ (s.padf = true → s.pos.toNat = 0) ∧ (s.padf = false → s.pos.toNat ∈ validEnd s.rsel) ∧
      s.acc.toNat = 0 ∧ decodeChecks s = s) := by
  by_cases he : s.err = .noError
  · rcases decodeEnd_cases s with ⟨hp, hpos, e⟩ | ⟨hp, hpos, e⟩ | ⟨hp, hp', e⟩
    · exact .inr (.inl ⟨he, hp, hpos, by simp [decodeChecks, he, e]⟩)
    · exact .inr (.inr (.inl ⟨he, hp, hpos, by simp [decodeChecks, he, e]⟩))
    · rcases unpackEnd_cases s with ⟨hacc, e'⟩ | ⟨hacc, e'⟩
      · exact .inr (.inr (.inr (.inl ⟨he, hp, hp', hacc, by simp [decodeChecks, he, e, e']⟩)))
      · exact .inr (.inr (.inr (.inr ⟨he, hp, hp', hacc, by simp [decodeChecks, he, e, e']⟩)))
  · exact .inl ⟨he, by simp [decodeChecks, he]⟩

/-- FIN in DEC: the checks decide the status alone, since closing clears the ERR they wrote (R154). -/
theorem exec_fin_dec {s : State} (hp : s.phase = .dec) :
    exec .fin s = .next (closeConversion (errStatus (decodeChecks s).err) [] s) := by
  obtain ⟨e, he⟩ := decodeChecks_frame s
  simp only [exec, execFin, hp, finishDecode, he]
  rfl

/-- Settles O30: the status is that of ERR after the checks, case by case. -/
theorem finInDecReportsTheFirstError : Obligations.FinInDecReportsTheFirstError := by
  intro s hp
  refine ⟨errStatus (decodeChecks s).err, exec_fin_dec hp, ?_⟩
  rcases decodeChecks_cases s with ⟨he, e⟩ | ⟨he, hpadf, hpos, e⟩ | ⟨he, hpadf, hpos, e⟩ | ⟨he, hpad, hend, hacc, e⟩ |
    ⟨he, hpad, hend, hacc, e⟩ <;> rw [e]
  · simp [he]
  · simp [he, hpadf, hpos, errStatus]
  · simp [he, hpadf, hpos, errStatus]
  · cases hpadf : s.padf <;> simp_all [errStatus]
  · cases hpadf : s.padf <;> simp_all [errStatus]

/-! ### Runs of commands -/

/-- A run goes on from the state its first step leaves. -/
theorem run_succ_of_step {s t : State} (k : Nat) (h : step s = .next t) :
    Sys2Proof.core.run (k + 1) s = Sys2Proof.core.run k t :=
  Nat.add_comm 1 k ▸ run_add _ 1 k s t (run_succ_eq_next_iff.mpr ⟨t, h, rfl⟩)

/-- A command that answers runs first, and the rest from the state it leaves. -/
theorem runCommands_cons {i : Instr} {is : List Instr} {s t : State} (h : exec i s = .next t) :
    runCommands (i :: is) s = runCommands is t := by
  obtain ⟨a, hresp, hin, hports⟩ := exec_withPorts h
  have hstep : step (s.presentAll (i :: is)) = .next (t.presentAll is) := by
    rw [step_of_decode rfl (decodeOfEncodeIsTheCommand i)]
    refine (hports (s.presentAll is).inputs s.responses).trans ?_
    rw [← hresp, State.presentAll, ← hin]
    rfl
  exact run_succ_of_step is.length hstep

/-- A property that counts the commands, and that each of them carries on by one, holds with the whole count after the run. -/
theorem runCommands_of_count {P : Nat → State → Prop} {is : List Instr}
    (hstep : ∀ i ∈ is, ∀ n s, P n s → ∃ t, exec i s = .next t ∧ P (n + 1) t) {n : Nat} {s : State} (h : P n s) :
    ∃ t, runCommands is s = .next t ∧ P (n + is.length) t := by
  induction is generalizing n s with
  | nil => exact ⟨s, rfl, h⟩
  | cons i is ih =>
    obtain ⟨u, hexec, hu⟩ := hstep i List.mem_cons_self n s h
    obtain ⟨t, hrun, ht⟩ := ih (fun j hj => hstep j (List.mem_cons_of_mem i hj)) hu
    refine ⟨t, (runCommands_cons hexec).trans hrun, ?_⟩
    rwa [List.length_cons, Nat.add_comm is.length, ← Nat.add_assoc]

/-! ### Empty conversions -/

/-- The state CFG leaves: the phase of its direction, an empty conversion, one response (R151). -/
def openConversion (d : Dir) (r : Rsel) (s : State) : State :=
  (((s.setRsel r).setPhase (phaseOfDir d)).clearConversion).respond .ok []

theorem exec_cfg (d : Dir) (r : Rsel) (s : State) : exec (.cfg d r) s = .next (openConversion d r s) := rfl

/-- FIN right after CFG in ENC: no bit is pending and POS = 0, so neither tail nor pad (R89). -/
theorem exec_fin_openConversion_encode (r : Rsel) (s : State) :
    exec .fin (openConversion .encode r s) = .next (closeConversion .ok [] (openConversion .encode r s)) := by
  have hres : (openConversion .encode r s).ReservoirOk := Nat.one_pos
  have hW : 0 < width r := Nat.zero_lt_of_lt (width_ge_four r)
  rw [(finInEncEmitsTailAndPads (openConversion .encode r s) rfl hres hW (blockSymbols_pos r)).1 rfl]
  simp [openConversion, closeConversion, State.respond]

/-- FIN right after CFG in DEC: POS = 0 is an end every codec accepts, and no bit is left over (R89). -/
theorem exec_fin_openConversion_decode (r : Rsel) (s : State) :
    exec .fin (openConversion .decode r s) = .next (closeConversion .ok [] (openConversion .decode r s)) := by
  have hend : 0 ∈ validEnd r := by cases r <;> decide
  have hchecks : decodeChecks (openConversion .decode r s) = openConversion .decode r s := by
    rcases decodeChecks_cases (openConversion .decode r s) with ⟨he, -⟩ | ⟨-, hpadf, -⟩ | ⟨-, -, hpos, -⟩ |
      ⟨-, -, -, hacc, -⟩ | ⟨-, -, -, -, e⟩
    · exact absurd rfl he
    · cases hpadf
    · exact absurd hend hpos
    · exact absurd rfl hacc
    · exact e
  rw [exec_fin_dec rfl, hchecks]
  rfl

/-- CFG and then FIN are answered with no data when FIN closes the conversion so. -/
theorem answersTo_cfg_fin {d : Dir} {r : Rsel} {s : State}
    (h : exec .fin (openConversion d r s) = .next (closeConversion .ok [] (openConversion d r s))) :
    answersTo [.cfg d r, .fin] s = some [⟨.ok, phaseOfDir d, []⟩, ⟨.ok, .idle, []⟩] :=
  answersTo_eq_some_iff.mpr
    ⟨_, (runCommands_cons (exec_cfg d r s)).trans (runCommands_cons h), List.append_assoc _ _ _⟩

/-- Settles O50: both calls are CFG and FIN, and FIN closes the empty conversion with OK and no data. -/
theorem emptyConversions : Obligations.EmptyConversions := by
  intro r s
  rw [encodeCall_eq_answersTo, decodeCall_eq_answersTo, encodeCommands, decodeCommands, List.map_nil, List.map_nil,
    List.nil_append, answersTo_cfg_fin (exec_fin_openConversion_encode r s),
    answersTo_cfg_fin (exec_fin_openConversion_decode r s)]
  exact ⟨rfl, rfl⟩

/-! ### Whole blocks -/

/-- An encode conversion with codec `r` after n bytes, counted from a block boundary: R28's CNT and POS. -/
def EncodedBytes (r : Rsel) (n : Nat) (s : State) : Prop :=
  s.phase = .enc ∧ s.rsel = r ∧ s.ReservoirOk ∧ s.cnt.toNat = 8 * n % width r ∧
    s.pos.toNat = 8 * n / width r % blockSymbols r

/-- At a block boundary no byte is counted. -/
theorem encodedBytes_zero {s : State} (hp : s.phase = .enc) (hacc : s.acc = 0) (hcnt : s.cnt = 0) (hpos : s.pos = 0) :
    EncodedBytes s.rsel 0 s :=
  ⟨hp, rfl, by simp [State.ReservoirOk, hacc, hcnt], by simp [hcnt], by simp [hpos]⟩

/-- PUTB counts one byte more. -/
theorem encodedBytes_putb {r : Rsel} {n : Nat} {s : State} (b : Byte) (h : EncodedBytes r n s) :
    ∃ t, exec (.putb b) s = .next t ∧ EncodedBytes r (n + 1) t := by
  obtain ⟨hp, rfl, hres, hcnt, hpos⟩ := h
  have hidx : ∀ i ∈ (packByte b s).1, i < alphabetSize (packByte b s).2.rsel := packByte_lt hres
  obtain ⟨ds, s', he⟩ := emitIndices_of_lt (packByte b s).2 hidx
  have hlt : s.pos.toNat < blockSymbols s.rsel := hpos ▸ Nat.mod_lt _ (blockSymbols_pos _)
  obtain rfl := emitIndices_pos he hlt
  obtain ⟨hres', hleft⟩ := packByte_reservoir (b := b) hres
  obtain ⟨hc, hq⟩ := quotient_and_remainder_of_next_byte hleft (hcnt ▸ packByte_count b s)
  have hfit := (Nat.mod_lt (s.pos.toNat + (packByte b s).1.length) (blockSymbols_pos s.rsel)).trans_le
    (blockSymbols_le_eight s.rsel)
  refine ⟨_, exec_putb_of_emit hp he, hp, rfl, hres', hc.symm, (Nat.mod_eq_of_lt hfit).trans ?_⟩
  rw [hq, hpos, Nat.mod_add_mod]

/-- A decode conversion with codec `r` and table `A`, without error or pad, after n table symbols from a block boundary. -/
def DecodedSymbols (A : Alphabet128) (r : Rsel) (n : Nat) (s : State) : Prop :=
  s.phase = .dec ∧ s.rom128 = A ∧ s.rsel = r ∧ s.err = .noError ∧ s.padf = false ∧ s.ReservoirOk ∧ s.DecodeOk ∧
    s.pos.toNat = n % blockSymbols r

/-- At a block boundary no symbol is counted. -/
theorem decodedSymbols_zero {s : State} (hp : s.phase = .dec) (he : s.err = .noError) (hpadf : s.padf = false)
    (hacc : s.acc = 0) (hcnt : s.cnt = 0) (hpos : s.pos = 0) : DecodedSymbols s.rom128 s.rsel 0 s := by
  have hdec : s.DecodeOk :=
    ⟨by simpa [hpos] using blockSymbols_pos s.rsel, fun _ => by simp [hcnt, hpos], by simp [hpadf], .inl he⟩
  exact ⟨hp, rfl, rfl, he, hpadf, by simp [State.ReservoirOk, hacc, hcnt], hdec, by simp [hpos]⟩

/-- PUTS of a table symbol counts one symbol more. -/
theorem decodedSymbols_puts {A : Alphabet128} {r : Rsel} {n : Nat} {s : State} {c : CodePoint} (hc : c ∈ romTable A r)
    (h : DecodedSymbols A r n s) : ∃ t, exec (.puts c) s = .next t ∧ DecodedSymbols A r (n + 1) t := by
  obtain ⟨hp, rfl, rfl, he, hpadf, hres, hdec, hpos⟩ := h
  obtain ⟨i, hi⟩ := romS2I_of_mem hc
  obtain ⟨hres', hdec'⟩ := decodeOk_of_index hres hdec hpadf (romS2I_sym_lt hi)
  have hpos' := advancePos_toNat (unpackIndex i s).2
  refine ⟨_, exec_puts_of_sym hp he hpadf hi, ?_⟩
  obtain ⟨t, k, hu⟩ := unpackIndex_frame i s
  rw [hu] at hres' hdec' hpos' ⊢
  refine ⟨hp, rfl, rfl, he, hpadf, hres', hdec', hpos'.trans ?_⟩
  rw [State.setReservoir_pos, State.setReservoir_rsel, hpos, Nat.mod_add_mod]

/-- With no bit held and POS at 0, all three registers are 0. -/
theorem realigned {s : State} (hres : s.ReservoirOk) (hcnt : s.cnt.toNat = 0) (hpos : s.pos.toNat = 0) :
    s.acc = 0 ∧ s.cnt = 0 ∧ s.pos = 0 := by
  have hacc : s.acc.toNat < 1 := by simpa [State.ReservoirOk, hcnt] using hres
  exact ⟨BitVec.eq_of_toNat_eq (Nat.lt_one_iff.mp hacc), BitVec.eq_of_toNat_eq hcnt, BitVec.eq_of_toNat_eq hpos⟩

/-- Settles O51: k·L bytes are no bits and no symbols modulo the block, and so are k·S symbols. -/
theorem blocksRealign : Obligations.BlocksRealign := by
  constructor
  · intro k bs s hp hacc hcnt hpos hlen
    have hstep : ∀ i ∈ bs.map Instr.putb, ∀ n u, EncodedBytes s.rsel n u →
        ∃ t, exec i u = .next t ∧ EncodedBytes s.rsel (n + 1) t := by
      intro i hi n u hu
      obtain ⟨b, -, rfl⟩ := List.mem_map.mp hi
      exact encodedBytes_putb b hu
    obtain ⟨t, hrun, -, -, hres, hcnt', hpos'⟩ := runCommands_of_count hstep (encodedBytes_zero hp hacc hcnt hpos)
    obtain ⟨hc, hq⟩ := encode_count_mod_block s.rsel (k * blockBytes s.rsel)
    rw [Nat.zero_add, List.length_map, hlen] at hcnt' hpos'
    rw [Nat.mul_mod_left] at hc hq
    exact ⟨t, hrun, realigned hres (by simpa using hcnt'.trans hc.symm) (by simpa using hpos'.trans hq.symm)⟩
  · intro k cs s hp he hpadf hacc hcnt hpos hlen hcs
    have hstep : ∀ i ∈ cs.map Instr.puts, ∀ n u, DecodedSymbols s.rom128 s.rsel n u →
        ∃ t, exec i u = .next t ∧ DecodedSymbols s.rom128 s.rsel (n + 1) t := by
      intro i hi n u hu
      obtain ⟨c, hc, rfl⟩ := List.mem_map.mp hi
      exact decodedSymbols_puts (hcs c hc) hu
    obtain ⟨t, hrun, -, -, -, -, hpadf', hres, ⟨-, hsym, -⟩, hpos'⟩ :=
      runCommands_of_count hstep (decodedSymbols_zero hp he hpadf hacc hcnt hpos)
    rw [Nat.zero_add, List.length_map, hlen, Nat.mul_mod_left] at hpos'
    exact ⟨t, hrun, realigned hres (by simpa [hpos'] using hsym hpadf') hpos'⟩

end Sys2Proof.Machine
end

section
/-! SUPPORT. The alphabet ROM of `41_alphabet_rom.md`: the fixed tables by their formulas (R100 to R102), the classification of symbols
and the inverse lookup (R105 to R107), the alphabet closure of emitted values (R108), and the ROM along every run (R109). -/

namespace Sys2Proof.Machine

/-! ### The fixed tables by index -/

/-- A range at any index, in it and beyond it. -/
theorem codeRange_getElem?_eq (first n i : Nat) :
    (codeRange first n)[i]? = if i < n then some (BitVec.ofNat 21 (first + i)) else none := by
  by_cases h : i < n
  · rw [if_pos h, codeRange_getElem? first n i h]
  · rw [if_neg h, List.getElem?_eq_none (by rw [codeRange_length]; omega)]

/-- A table that begins with a range reads the range first, and then the rest from its own index 0. -/
theorem codeRange_append_getElem? (first n : Nat) (rest : List CodePoint) (i : Nat) :
    (codeRange first n ++ rest)[i]? = if i < n then some (BitVec.ofNat 21 (first + i)) else rest[i - n]? := by
  rw [List.getElem?_append, codeRange_length, codeRange_getElem?_eq]
  by_cases h : i < n
  · rw [if_pos h, if_pos h, if_pos h]
  · rw [if_neg h, if_neg h]

/-- The last two entries of table 0 stand after its ranges (R100). -/
theorem pair_getElem? (c d : CodePoint) (i : Nat) :
    [c, d][i]? = if i = 0 then some c else if i = 1 then some d else none := by
  match i with
  | 0 => rfl
  | 1 => rfl
  | _ + 2 => rfl

/-- Two tables by cases agree when their conditions do and their rests agree beyond the first case. -/
theorem ite_else_congr {p q : Prop} [Decidable p] [Decidable q] {x y z : Option CodePoint} (hpq : p ↔ q)
    (hrest : ¬q → y = z) : (if p then x else y) = if q then x else z :=
  ite_congr (propext hpq) (fun _ => rfl) hrest

/-- Settles O33: each table is its ranges one after the other, and an index beyond the first range counts from the next. -/
theorem fixedTablesByFormula : Obligations.FixedTablesByFormula := by
  intro A i
  refine ⟨?_, ?_, ?_⟩
  · rw [romI2S, romTable, table64, List.append_assoc, List.append_assoc]
    simp only [codeRange_append_getElem?, pair_getElem?, Nat.sub_sub, Nat.reduceAdd]
    exact ite_else_congr (by omega) fun _ => ite_else_congr (by omega) fun _ => ite_else_congr (by omega) fun _ =>
      ite_else_congr (by omega) fun _ => ite_else_congr (by omega) fun _ => rfl
  · rw [romI2S, romTable, table32, codeRange_append_getElem?, codeRange_getElem?_eq]
    exact ite_else_congr (by omega) fun _ => ite_else_congr (by omega) fun _ => rfl
  · rw [romI2S, romTable, table16, codeRange_append_getElem?, codeRange_getElem?_eq]
    exact ite_else_congr (by omega) fun _ => ite_else_congr (by omega) fun _ => rfl

/-! ### Classification and the inverse lookup -/

/-- Settles O36: the pad stands in neither padded table, by inspection, and the other codecs have no pad. -/
theorem padIsNoTableEntry : Obligations.PadIsNoTableEntry := by
  intro A t hpadded
  cases t with
  | radix64 => exact (by decide : (0x3D : CodePoint) ∉ table64)
  | radix32 => exact (by decide : (0x3D : CodePoint) ∉ table32)
  | radix16 => cases hpadded
  | radix128 => cases hpadded

/-- Settles O34: the search finds an entry at an index that RomI2S answers, and what is no entry is PAD or NONE by RomS2I's second
test. -/
theorem romClassifiesSymbols : Obligations.RomClassifiesSymbols := by
  refine ⟨fun t => by cases t <;> decide, fun A t c => ⟨fun hmem => ?_, fun hmem hpadded hc => ?_, fun hmem hpad => ?_⟩⟩
  · obtain ⟨i, hi⟩ := romS2I_of_mem hmem
    exact ⟨i, hi, (romI2S_some (romS2I_sym hi)).1, romS2I_sym hi⟩
  · rw [romS2I_of_not_mem hmem, if_pos ⟨hpadded, hc⟩]
  · rw [romS2I_of_not_mem hmem]
    exact if_neg hpad

/-- Settles O35: distinct entries give the index back, and what the search finds is an occurrence. -/
theorem romPortsAreInverse : Obligations.RomPortsAreInverse :=
  fun _ hA t => ⟨romTable_nodup hA t, fun _ _ => ⟨romS2I_of_romI2S hA, romS2I_sym⟩⟩

/-! ### Printable entries -/

/-- An entry of any table is printable: the fixed ones by inspection, ALPHABET128 by constraint (b) of R103. -/
theorem printable_of_mem_romTable {A : Alphabet128} (hA : A.Printable) {t : Rsel} {c : CodePoint} (h : c ∈ romTable A t) :
    printable c = true := by
  cases t with
  | radix64 => exact fixedTables_printable c (List.mem_append_left _ (List.mem_append_left _ h))
  | radix32 => exact fixedTables_printable c (List.mem_append_left _ (List.mem_append_right _ h))
  | radix16 => exact fixedTables_printable c (List.mem_append_right _ h)
  | radix128 => exact hA c h

/-- What is not printable is no entry, and it is not the pad either (R105). -/
theorem romS2I_of_not_printable {A : Alphabet128} (hA : A.Printable) (t : Rsel) {c : CodePoint} (hc : ¬printable c = true) :
    romS2I A t c = .unknown := by
  have hpad : c ≠ padChar := fun e => hc (e ▸ printable_padChar)
  rw [romS2I_of_not_mem fun h => hc (printable_of_mem_romTable hA h), if_neg fun h => hpad h.2]

/-- What is no Unicode scalar value is NONE in every table (R105). -/
theorem romS2I_of_not_scalar {A : Alphabet128} (hA : A.Printable) (t : Rsel) {c : CodePoint}
    (hc : 0x10FFFF < c.toNat ∨ (0xD800 ≤ c.toNat ∧ c.toNat ≤ 0xDFFF)) : romS2I A t c = .unknown := by
  have hs : isScalarValue c = false := (isScalarValue_eq_false_iff c).mpr hc
  exact romS2I_of_not_printable hA t fun h => Bool.false_ne_true (hs.symm.trans (isScalarValue_of_printable h))

/-- PUTS of a code point that is neither entry nor pad, in DEC with no error before it (R181). -/
theorem exec_puts_of_unknown {c : CodePoint} {s : State} (hp : s.phase = .dec) (he : s.err = .noError)
    (h : romS2I s.rom128 s.rsel c = .unknown) : exec (.puts c) s = .next (s.failWith .invalidSymbol) := by
  simp [exec, execPuts, hp, decodeSymbol, he, h]

/-- Settles O59: every entry is printable, so a scalar value, and PUTS fails on a symbol that is NONE. -/
theorem noTableHoldsANonScalar : Obligations.NoTableHoldsANonScalar := by
  refine ⟨fun A hA t c => ⟨printable_of_mem_romTable hA, romS2I_of_not_scalar hA t⟩, fun s c hinv hp he hc => ?_⟩
  obtain ⟨⟨-, hprintable⟩, -⟩ := hinv
  rw [exec_puts_of_unknown hp he (romS2I_of_not_scalar hprintable s.rsel hc), ← hp]
  rfl

/-! ### Alphabet closure -/

/-- What the block may emit in its phase (R108): in ENC a symbol of the selected table or the pad of a padded codec, in DEC a byte. -/
def State.MayEmit (s : State) (d : Datum) : Prop :=
  (s.phase = .enc ∧ ∃ c, d = .symbol c ∧ (c ∈ romTable s.rom128 s.rsel ∨ (padded s.rsel = true ∧ c = padChar))) ∨
  (s.phase = .dec ∧ ∃ b, d = .byte b)

/-- A response that emits nothing emits nothing wrong. -/
theorem mayEmit_nil (s : State) : ∀ d ∈ ([] : List Datum), s.MayEmit d := fun _ hd => absurd hd List.not_mem_nil

/-- What is emitted from indices in ENC is an entry of the selected table. -/
theorem mayEmit_of_emitIndices {is : List Nat} {s u u' : State} {ds : List Datum} (hp : s.phase = .enc)
    (hrom : u.rom128 = s.rom128) (hrsel : u.rsel = s.rsel) (h : emitIndices is u = some (ds, u')) :
    ∀ d ∈ ds, s.MayEmit d := by
  intro d hd
  obtain ⟨c, hdc, hc⟩ := emitIndices_mem h d hd
  exact .inl ⟨hp, c, hdc, .inl (hrom ▸ hrsel ▸ hc)⟩

/-- The pads of FIN in ENC are those of the selected codec. -/
theorem mayEmit_of_padOut {s u : State} (hp : s.phase = .enc) (hrsel : u.rsel = s.rsel) :
    ∀ d ∈ (padOut u).1, s.MayEmit d := by
  intro d hd
  obtain ⟨hpadded, hdc⟩ := padOut_mem u d hd
  exact .inl ⟨hp, padChar, hdc, .inr ⟨hrsel ▸ hpadded, rfl⟩⟩

/-- PUTS in DEC answers with nothing but UnpackIndex's byte. -/
theorem decodeSymbol_emits (c : CodePoint) {s : State} (hp : s.phase = .dec) :
    ∃ a : Response, (decodeSymbol c s).responses = s.responses ++ [a] ∧ ∀ d ∈ a.data, s.MayEmit d := by
  rcases decodeSymbol_cases c s with ⟨-, e⟩ | ⟨-, -, e⟩ | ⟨-, -, -, e⟩ | ⟨-, -, -, e⟩ | ⟨i, -, -, -, e⟩ |
    ⟨i, -, -, -, e⟩ <;> rw [e]
  on_goal 6 =>
    refine ⟨_, congrArg (· ++ _) (unpackIndex_ports s i).2, fun d hd => ?_⟩
    obtain ⟨b, -, rfl⟩ := List.mem_map.mp hd
    exact .inr ⟨hp, b, rfl⟩
  all_goals exact ⟨_, rfl, mayEmit_nil s⟩

/-- A command answers with values its phase may emit (R108). -/
theorem exec_emits {i : Instr} {s t : State} (h : exec i s = .next t) :
    ∃ a : Response, t.responses = s.responses ++ [a] ∧ ∀ d ∈ a.data, s.MayEmit d := by
  cases i with
  | cfg d r =>
    cases h
    exact ⟨_, rfl, mayEmit_nil s⟩
  | putb b =>
    rcases execPutb_cases h with ⟨-, rfl⟩ | ⟨hp, ds, s1, he, rfl⟩
    · exact ⟨_, rfl, mayEmit_nil s⟩
    · have hds := mayEmit_of_emitIndices (u := (packByte b s).2) hp rfl rfl he
      obtain ⟨p, rfl⟩ := emitIndices_frame he
      exact ⟨_, rfl, hds⟩
  | puts c =>
    rcases execPuts_cases h with ⟨-, rfl⟩ | ⟨hp, rfl⟩
    · exact ⟨_, rfl, mayEmit_nil s⟩
    · exact decodeSymbol_emits c hp
  | fin =>
    rcases execFin_cases h with ⟨-, rfl⟩ | ⟨hp, ds, s1, he, rfl⟩ | ⟨-, rfl⟩
    · exact ⟨_, rfl, mayEmit_nil s⟩
    · obtain ⟨-, hrsel, -, -, -, hrom, -, hresp⟩ := packTail_frame s
      have hds := mayEmit_of_emitIndices hp hrom hrsel he
      obtain ⟨p, rfl⟩ := emitIndices_frame he
      refine ⟨_, congrArg (· ++ _) hresp, fun d hd => ?_⟩
      rcases List.mem_append.mp hd with hd | hd
      · exact hds d hd
      · exact mayEmit_of_padOut (u := (packTail s).2.setPos p) hp hrsel d hd
    · obtain ⟨e, he⟩ := decodeChecks_frame s
      exact ⟨⟨errStatus (decodeChecks s).err, .idle, []⟩, by rw [he]; rfl, mayEmit_nil s⟩

/-- Settles O44: a legal command appends one response with values its phase may emit, and an ILLEGAL word is answered with none. -/
theorem emittedValuesBelongToTheCodec : Obligations.EmittedValuesBelongToTheCodec := by
  intro s t w rest hin h a ha
  obtain ⟨added, hresp, hadded⟩ :
      ∃ added : Response, t.responses = s.responses ++ [added] ∧ ∀ d ∈ added.data, s.MayEmit d := by
    cases hd : decode w with
    | ok i => exact exec_emits (s := { s with inputs := rest }) ((step_of_decode hin hd).symm.trans h)
    | error e =>
      cases (step_of_illegal hin hd).symm.trans h
      exact ⟨_, rfl, mayEmit_nil s⟩
  rw [responsesSince, hresp, List.drop_left, List.mem_singleton] at ha
  exact ha ▸ hadded

/-! ### The ROM along every run -/

/-- In a good state every command answers: the indices PUTB and FIN look up are below N (R104, R161). -/
theorem exec_answers (i : Instr) {s : State} (hinv : s.Inv) : ∃ t, exec i s = .next t := by
  obtain ⟨-, hres, hphase⟩ := hinv
  cases i with
  | cfg d r => exact ⟨_, exec_cfg d r s⟩
  | putb b =>
    by_cases hp : s.phase = .enc
    · have hlt : ∀ i ∈ (packByte b s).1, i < alphabetSize (packByte b s).2.rsel := packByte_lt hres
      obtain ⟨ds, s', he⟩ := emitIndices_of_lt (packByte b s).2 hlt
      exact ⟨_, exec_putb_of_emit hp he⟩
    · exact ⟨_, execPutb_reject hp⟩
  | puts c =>
    by_cases hp : s.phase = .dec
    · exact ⟨decodeSymbol c s, by simp only [exec, execPuts, hp]⟩
    · exact ⟨_, execPuts_reject hp⟩
  | fin =>
    cases hp : s.phase with
    | idle => exact ⟨_, execFin_reject hp⟩
    | dec => exact ⟨_, exec_fin_dec hp⟩
    | enc =>
      obtain ⟨hcnt, -⟩ := encodeOk_bounds ((phaseOk_enc hp).mp hphase)
      obtain ⟨-, hrsel, -⟩ := packTail_frame s
      obtain ⟨tail, s', he⟩ := emitIndices_of_lt (packTail s).2 (hrsel ▸ packTail_lt hres hcnt)
      exact ⟨_, exec_fin_of_emit hp he⟩

/-- From a good state there is a next state, whatever the host presents. -/
theorem step_answers {s : State} (hinv : s.Inv) : ∃ t, step s = .next t := by
  cases hin : s.inputs with
  | nil => exact ⟨s, step_of_nothing_presented hin⟩
  | cons x xs =>
    cases x with
    | reset => exact ⟨_, step_of_reset hin⟩
    | command w =>
      cases hd : decode w with
      | error e => exact ⟨_, step_of_illegal hin hd⟩
      | ok i =>
        obtain ⟨t, ht⟩ := exec_answers i (s := { s with inputs := xs }) hinv
        exact ⟨t, (step_of_decode hin hd).trans ht⟩

/-- A run from a good state never stops; it ends in a good state with the same ROM. -/
theorem run_of_inv (k : Nat) {s : State} (hinv : s.Inv) :
    ∃ t, Sys2Proof.core.run k s = .next t ∧ t.Inv ∧ t.rom128 = s.rom128 := by
  induction k generalizing s with
  | zero => exact ⟨s, rfl, hinv, rfl⟩
  | succ k ih =>
    obtain ⟨u, hstep⟩ := step_answers hinv
    obtain ⟨t, hrun, hinv', hrom⟩ := ih (stepKeepsInv s u hinv hstep)
    exact ⟨t, run_succ_eq_next_iff.mpr ⟨u, hstep, hrun⟩, hinv', hrom.trans (nothingWritesTheRom s u hstep)⟩

/-- Settles O60: the reset state is good, whatever is presented, so its runs go on with the ROM kept, and the table's distinct entries
make the ports inverse. -/
theorem romIsValidFromReset : Obligations.RomIsValidFromReset := by
  intro A hA ins k
  have hinv : ({ State.resetWith A with inputs := ins } : State).Inv := resetSatisfiesInv.1 A hA
  obtain ⟨t, hrun, -, hrom⟩ := run_of_inv k hinv
  have htable : t.rom128 = A := hrom
  refine ⟨t, hrun, htable, fun r i hi => ?_⟩
  obtain ⟨c, hc⟩ := romI2S_of_lt t.rom128 r hi
  exact ⟨c, hc, romS2I_of_romI2S (htable ▸ hA.1) hc⟩

end Sys2Proof.Machine
end

section
/-! SUPPORT. PUTS of a pad, and of a symbol after one (`42_padding_fsm.md` R123, R124). -/

namespace Sys2Proof.Machine

/-- Recording ERR in DEC, written out (R153). -/
theorem failWith_eq (e : Err) {s : State} (hp : s.phase = .dec) :
    s.failWith e = { s with err := e, responses := s.responses ++ [⟨errStatus e, .dec, []⟩] } := by
  rw [← hp]
  rfl

/-- The pad of a padded codec is PAD to RomS2I, since no padded table holds it (R105, R107). -/
theorem romS2I_padChar (A : Alphabet128) {t : Rsel} (hpadded : padded t = true) : romS2I A t padChar = .pad := by
  have hmem : padChar ∉ romTable A t := padIsNoTableEntry A t hpadded
  rw [romS2I_of_not_mem hmem, if_pos ⟨hpadded, rfl⟩]

/-- PUTS in DEC is `decodeSymbol` (R153). -/
theorem exec_puts_dec (c : CodePoint) {s : State} (hp : s.phase = .dec) : exec (.puts c) s = .next (decodeSymbol c s) := by
  simp only [exec, execPuts, hp]

/-- PUTS of the pad of a padded codec is decided by PadIn alone (R123). -/
theorem exec_puts_padChar {s : State} (hp : s.phase = .dec) (he : s.err = .noError) (hpadded : padded s.rsel = true) :
    exec (.puts padChar) s = .next (decodePad s) := by
  simp [exec_puts_dec _ hp, decodeSymbol, he, romS2I_padChar s.rom128 hpadded]

/-- PadIn accepts a first pad at a POS in VALIDM, and a later one while POS is not back at 0 (R123). -/
theorem padInRefuses_eq_false_iff (s : State) :
    padInRefuses s = false ↔
      (s.padf = false ∧ s.pos.toNat ∈ validM s.rsel) ∨ (s.padf = true ∧ s.pos.toNat ≠ 0) := by
  cases hpadf : s.padf <;> simp [padInRefuses, hpadf]

/-- Settles O24: RomS2I answers PAD, and the two cases are those of PadIn. -/
theorem putsPad : Obligations.PutsPad := by
  intro s hp he hpadded
  have hexec := exec_puts_padChar hp he hpadded
  refine ⟨fun haccept => ?_, fun hrefuse => ?_⟩
  · rw [decodePad, if_neg (by simp [(padInRefuses_eq_false_iff s).mpr haccept])] at hexec
    refine hexec.trans ?_
    rw [← hp]
    rfl
  · have hin : padInRefuses s = true := by
      rw [← Bool.not_eq_false, padInRefuses_eq_false_iff]
      rcases hrefuse with ⟨hpadf, hpos⟩ | ⟨hpadf, hpos⟩ <;> simp [hpadf, hpos]
    rw [decodePad, if_pos hin, failWith_eq _ hp] at hexec
    exact hexec

/-- Settles O25: RomS2I answers an index, and SymAfterPad refuses it whichever it is. -/
theorem putsSymbolAfterPad : Obligations.PutsSymbolAfterPad := by
  intro c s hp he hpadf hmem
  obtain ⟨i, hi⟩ := romS2I_of_mem hmem
  have hexec : exec (.puts c) s = .next (s.failWith .malformedPadding) := by
    simp [exec_puts_dec c hp, decodeSymbol, he, hi, decodeIndex, hpadf]
  exact hexec.trans (congrArg Host.Outcome.next (failWith_eq _ hp))

end Sys2Proof.Machine
end

section
/-! SUPPORT. What the facts about whole conversions share: numbers written most significant digit first (R44), symbol sequences as
indices and pads, and runs of commands followed element by element (`43_commands.md` R156, R157). -/

namespace Sys2Proof.Machine

/-! ### Numbers, most significant digit first -/

/-- The number that digits of `w` bits each stand for, oldest and most significant first (R44). -/
def bigEndian (w : Nat) (ds : List Nat) : Nat := ds.foldl (fun a i => a * 2 ^ w + i) 0

/-- The library's numerals begin with the least significant digit. -/
theorem bigEndian_eq_ofDigits (w : Nat) (ds : List Nat) : bigEndian w ds = Nat.ofDigits (2 ^ w) ds.reverse := by
  simp [bigEndian, Nat.ofDigits_eq_foldr, Nat.add_comm, Nat.mul_comm]

theorem bigEndian_append (w : Nat) (ds es : List Nat) :
    bigEndian w (ds ++ es) = bigEndian w ds * 2 ^ (w * es.length) + bigEndian w es := by
  rw [bigEndian_eq_ofDigits, List.reverse_append, Nat.ofDigits_append, List.length_reverse, ← bigEndian_eq_ofDigits,
    ← bigEndian_eq_ofDigits, ← Nat.pow_mul]
  ring

@[simp] theorem bigEndian_singleton (w i : Nat) : bigEndian w [i] = i := by simp [bigEndian]

/-- As many digits that stand for the same number are the same digits. -/
theorem bigEndian_injective {w : Nat} (hw : 0 < w) {ds es : List Nat} (hlen : ds.length = es.length)
    (hds : ∀ i ∈ ds, i < 2 ^ w) (hes : ∀ i ∈ es, i < 2 ^ w) (h : bigEndian w ds = bigEndian w es) : ds = es := by
  rw [bigEndian_eq_ofDigits, bigEndian_eq_ofDigits] at h
  exact List.reverse_injective (Nat.ofDigits_inj_of_len_eq (Nat.one_lt_two_pow hw.ne') (by simpa using hlen)
    (by simpa using hds) (by simpa using hes) h)

/-- The number bytes stand for. -/
def bytesValue (bs : List Byte) : Nat := bigEndian 8 (bs.map BitVec.toNat)

theorem bytesValue_append (bs cs : List Byte) :
    bytesValue (bs ++ cs) = bytesValue bs * 2 ^ (8 * cs.length) + bytesValue cs := by
  simp [bytesValue, bigEndian_append]

@[simp] theorem bytesValue_singleton (b : Byte) : bytesValue [b] = b.toNat := by simp [bytesValue]

theorem bytesValue_injective {bs cs : List Byte} (hlen : bs.length = cs.length) (h : bytesValue bs = bytesValue cs) :
    bs = cs := by
  have hbyte : ∀ l : List Byte, ∀ i ∈ l.map BitVec.toNat, i < 2 ^ 8 := by
    intro l i hi
    obtain ⟨b, -, rfl⟩ := List.mem_map.mp hi
    exact b.isLt
  have htoNat : Function.Injective (BitVec.toNat : Byte → Nat) := fun _ _ => BitVec.eq_of_toNat_eq
  exact htoNat.list_map (bigEndian_injective (by decide) (by simpa using hlen) (hbyte bs) (hbyte cs) h)

/-! ### Symbols by their indices -/

/-- The table's symbol at an index; for an index below N it is RomI2S's answer (`romI2S_eq_symbolAt`). -/
def symbolAt (A : Alphabet128) (r : Rsel) (i : Nat) : CodePoint := (romI2S A r i).getD padChar

theorem symbolAt_of_romI2S {A : Alphabet128} {r : Rsel} {i : Nat} {c : CodePoint} (h : romI2S A r i = some c) :
    symbolAt A r i = c := by rw [symbolAt, h, Option.getD_some]

theorem romI2S_eq_symbolAt (A : Alphabet128) {r : Rsel} {i : Nat} (hi : i < 2 ^ width r) :
    romI2S A r i = some (symbolAt A r i) := by
  obtain ⟨c, hc⟩ := romI2S_of_lt A r (alphabetSize_eq_two_pow_width r ▸ hi)
  rw [hc, symbolAt_of_romI2S hc]

theorem symbolAt_mem (A : Alphabet128) {r : Rsel} {i : Nat} (hi : i < 2 ^ width r) : symbolAt A r i ∈ romTable A r :=
  (romI2S_some (romI2S_eq_symbolAt A hi)).2

/-- Emission emits the symbols at the indices, in order. -/
theorem emitIndices_symbols {is : List Nat} {s s' : State} {ds : List Datum} (h : emitIndices is s = some (ds, s')) :
    ds = (is.map (symbolAt s.rom128 s.rsel)).map .symbol := by
  induction is generalizing s ds s' with
  | nil =>
    simp only [emitIndices, Option.some.injEq, Prod.mk.injEq] at h
    exact h.1.symm
  | cons i is ih =>
    simp only [emitIndices] at h
    split at h
    · cases h
    · rename_i c hc
      split at h
      · cases h
      · rename_i ds' t ht
        simp only [Option.some.injEq, Prod.mk.injEq] at h
        rw [← h.1, ih ht, List.map_cons, symbolAt_of_romI2S hc]
        rfl

/-- The symbols at some indices and then pads: what an encode conversion gives and what a decode conversion may accept. -/
def spelling (A : Alphabet128) (r : Rsel) (is : List Nat) (pads : Nat) : List CodePoint :=
  is.map (symbolAt A r) ++ List.replicate pads padChar

theorem spelling_index (A : Alphabet128) (r : Rsel) (is : List Nat) (i : Nat) :
    spelling A r (is ++ [i]) 0 = spelling A r is 0 ++ [symbolAt A r i] := by simp [spelling]

theorem spelling_pad (A : Alphabet128) (r : Rsel) (is : List Nat) (pads : Nat) :
    spelling A r is (pads + 1) = spelling A r is pads ++ [padChar] := by
  rw [spelling, List.replicate_succ', ← List.append_assoc, spelling]

/-- How many pads follow a whole conversion's symbols: as many as complete the block of a padded codec (R121, R122). -/
def padCount (r : Rsel) (symbols : Nat) : Nat :=
  if padded r = true then (blockSymbols r - symbols % blockSymbols r) % blockSymbols r else 0

/-! ### What was answered -/

/-- The block has answered since `old`, and these are the data of its answers (R12). -/
def State.Answered (old : List Response) (ds : List Datum) (s : State) : Prop :=
  ∃ rs, s.responses = old ++ rs ∧ dataOf rs = ds

theorem answered_nil (s : State) : s.Answered s.responses [] := ⟨[], (List.append_nil _).symm, rfl⟩

/-- One response more, with its data. -/
theorem State.Answered.append {old : List Response} {ds es : List Datum} {st : Status} {p : Phase} {s t : State}
    (h : s.Answered old ds) (ht : t.responses = s.responses ++ [⟨st, p, es⟩]) : t.Answered old (ds ++ es) := by
  obtain ⟨rs, hrs, rfl⟩ := h
  exact ⟨rs ++ [⟨st, p, es⟩], by rw [ht, hrs, List.append_assoc], by simp [dataOf]⟩

@[simp] theorem symbolsOf_map_symbol (cs : List CodePoint) : symbolsOf (cs.map .symbol) = cs := by
  induction cs with
  | nil => rfl
  | cons c cs ih => rw [List.map_cons, symbolsOf, ih]

@[simp] theorem bytesOf_map_byte (bs : List Byte) : bytesOf (bs.map .byte) = bs := by
  induction bs with
  | nil => rfl
  | cons b bs ih => rw [List.map_cons, bytesOf, ih]

/-! ### Runs of commands, one after the other -/

/-- Commands after others run from the state those leave. -/
theorem runCommands_append {is js : List Instr} {s t : State} (h : runCommands is s = .next t) :
    runCommands (is ++ js) s = runCommands js t := by
  have hlen : (is.map fun i => Input.command (encode i)).length = is.length := List.length_map _
  rw [runCommands, ← hlen] at h
  obtain ⟨added, hresp, hin, hports⟩ := run_withPorts (s := s.presentAll is) rfl h
  have hfirst := hports (t.presentAll js).inputs s.responses
  have hs : (s.presentAll is).withPorts ((is.map fun i => Input.command (encode i)) ++ (t.presentAll js).inputs) s.responses =
      s.presentAll (is ++ js) := by
    ext1 <;> simp [State.presentAll, hin]
  have ht : t.withPorts (t.presentAll js).inputs (s.responses ++ added) = t.presentAll js := by
    rw [show s.responses ++ added = t.responses from hresp.symm]
    rfl
  rw [hs, ht, hlen] at hfirst
  rw [runCommands, List.length_append]
  exact run_add _ _ _ _ _ hfirst

theorem runCommands_singleton {i : Instr} {s t : State} (h : exec i s = .next t) : runCommands [i] s = .next t :=
  runCommands_cons h

/-- A property of the elements already fed and the state, carried on by the command of each next one, holds after all of them. -/
theorem runCommands_of_elements {α : Type} {P : List α → State → Prop} {cmd : α → Instr} {xs : List α} {s : State}
    (hstep : ∀ pre x post u, xs = pre ++ x :: post → P pre u → ∃ t, exec (cmd x) u = .next t ∧ P (pre ++ [x]) t)
    (h : P [] s) : ∃ t, runCommands (xs.map cmd) s = .next t ∧ P xs t := by
  induction xs using List.reverseRecOn with
  | nil => exact ⟨s, rfl, h⟩
  | append_singleton xs x ih =>
    obtain ⟨u, hrun, hu⟩ := ih fun pre y post u hxs => hstep pre y (post ++ [x]) u (by rw [hxs]; simp)
    obtain ⟨t, hexec, ht⟩ := hstep xs x [] u rfl hu
    refine ⟨t, ?_, ht⟩
    rw [List.map_append, runCommands_append hrun]
    exact runCommands_singleton hexec

/-- The encode call gives the symbols answered over its run. -/
theorem encodeCall_of_answered {r : Rsel} {bs : List Byte} {cs : List CodePoint} {s t : State}
    (h : runCommands (encodeCommands r bs) s = .next t) (ht : t.Answered s.responses (cs.map .symbol)) :
    encodeCall r bs s = some cs := by
  obtain ⟨rs, hresp, hdata⟩ := ht
  rw [encodeCall_eq_answersTo, answersTo_eq_some_iff.mpr ⟨t, h, hresp⟩, Option.map_some, hdata, symbolsOf_map_symbol]

/-- The decode call gives the bytes answered to its PUTS when FIN's checks find ERR at 0, else the status ERR stands for (R157). -/
theorem decodeCall_of_answered {r : Rsel} {cs : List CodePoint} {ds : List Datum} {s t : State}
    (h : runCommands (cs.map .puts) (openConversion .decode r s) = .next t) (hp : t.phase = .dec)
    (ht : t.Answered s.responses ds) :
    decodeCall r cs s =
      some (if errStatus (decodeChecks t).err = .ok then .ok (bytesOf ds) else .error (errStatus (decodeChecks t).err)) := by
  have hfin := exec_fin_dec hp
  obtain ⟨rs, hresp, rfl⟩ := ht
  have hrun : runCommands (decodeCommands r cs) s = .next (closeConversion (errStatus (decodeChecks t).err) [] t) :=
    (runCommands_cons (exec_cfg .decode r s)).trans ((runCommands_append h).trans (runCommands_singleton hfin))
  have hall : (closeConversion (errStatus (decodeChecks t).err) [] t).responses =
      s.responses ++ (rs ++ [⟨errStatus (decodeChecks t).err, .idle, []⟩]) := by
    rw [closeConversion_responses, hresp, List.append_assoc]
  rw [decodeCall_eq_answersTo, answersTo_eq_some_iff.mpr ⟨_, hrun, hall⟩]
  simp [decodeResult, dataOf]

end Sys2Proof.Machine
end

section
/-! SUPPORT. Encode calls: the indices of the symbols are the bytes' bits cut into groups of W, the last filled up with zeros, and then
the pads follow (`40_bit_reservoir.md` R80 to R84, `42_padding_fsm.md` R121, R122). -/

namespace Sys2Proof.Machine

/-- The indices are those of the bytes: the bytes' bits, with fewer than W zero bits after them, in groups of W (R83, R84). -/
def Encodes (r : Rsel) (bs : List Byte) (is : List Nat) : Prop :=
  (∀ i ∈ is, i < 2 ^ width r) ∧
    ∃ c < width r, is.length * width r = 8 * bs.length + c ∧ bigEndian (width r) is = bytesValue bs * 2 ^ c

/-- Groups of W bits that hold some bits and fewer than W more are as few as can hold them. -/
theorem groups_eq_ceil {w a m c : Nat} (h : m * w = a + c) (hc : c < w) : m = (a + w - 1) / w := by
  refine (Nat.div_eq_of_lt_le (by omega) ?_).symm
  rw [Nat.succ_mul]
  omega

/-- Bytes have one encoding. -/
theorem encodes_unique {r : Rsel} {bs : List Byte} {is js : List Nat} (hi : Encodes r bs is) (hj : Encodes r bs js) :
    is = js := by
  obtain ⟨hi, c, hc, hlen, hval⟩ := hi
  obtain ⟨hj, d, hd, hlen', hval'⟩ := hj
  have hsame : is.length = js.length := (groups_eq_ceil hlen hc).trans (groups_eq_ceil hlen' hd).symm
  rw [hsame] at hlen
  obtain rfl : c = d := by omega
  exact bigEndian_injective (Nat.zero_lt_of_lt (width_ge_four r)) hsame hi hj (hval.trans hval'.symm)

/-- An encode conversion with codec `r` and table `A` that was fed `bs` and answered the symbols at the indices `is` since `old`. -/
structure Encoding (A : Alphabet128) (r : Rsel) (old : List Response) (bs : List Byte) (is : List Nat) (s : State) : Prop where
  rom : s.rom128 = A
  counted : EncodedBytes r bs.length s
  indices : ∀ i ∈ is, i < 2 ^ width r
  bits : is.length * width r + s.cnt.toNat = 8 * bs.length
  held : bigEndian (width r) is * 2 ^ s.cnt.toNat + s.acc.toNat = bytesValue bs
  answered : s.Answered old ((is.map (symbolAt A r)).map .symbol)

theorem encoding_openConversion (r : Rsel) (s : State) :
    Encoding s.rom128 r s.responses [] [] (openConversion .encode r s) where
  rom := rfl
  counted := encodedBytes_zero (s := openConversion .encode r s) rfl rfl rfl rfl
  indices := by simp
  bits := by simp [openConversion]
  held := rfl
  answered := (answered_nil s).append (t := openConversion .encode r s) rfl

/-- PUTB feeds one byte and answers PackByte's indices (R81, R152). -/
theorem encoding_putb {A : Alphabet128} {r : Rsel} {old : List Response} {bs : List Byte} {is : List Nat} {s : State}
    (b : Byte) (h : Encoding A r old bs is s) :
    ∃ js t, exec (.putb b) s = .next t ∧ Encoding A r old (bs ++ [b]) (is ++ js) t := by
  obtain ⟨rfl, hcounted, hidx, hbits, hheld, hans⟩ := h
  obtain ⟨t, hexec, hcounted'⟩ := encodedBytes_putb b hcounted
  obtain ⟨hp, rfl, hres, -, -⟩ := hcounted
  rcases execPutb_cases hexec with ⟨hne, -⟩ | ⟨-, ds, s1, hemit, rfl⟩
  · exact absurd hp hne
  obtain rfl := emitIndices_symbols hemit
  obtain ⟨p, rfl⟩ := emitIndices_frame hemit
  have hcount := packByte_count b s
  have hvalue := packByte_value (b := b) hres
  have hlt := packByte_lt (b := b) hres
  rw [alphabetSize_eq_two_pow_width] at hlt
  refine ⟨(packByte b s).1, _, hexec, rfl, by simpa using hcounted', ?_, ?_, ?_, ?_⟩
  · exact fun i hi => (List.mem_append.mp hi).elim (hidx i) (hlt i)
  · simp only [List.length_append, List.length_singleton, Nat.add_mul]
    change is.length * width s.rsel + (packByte b s).1.length * width s.rsel + (packByte b s).2.cnt.toNat = _
    omega
  · calc bigEndian (width s.rsel) (is ++ (packByte b s).1) * 2 ^ (packByte b s).2.cnt.toNat + (packByte b s).2.acc.toNat
        = bigEndian (width s.rsel) is * 2 ^ ((packByte b s).1.length * width s.rsel + (packByte b s).2.cnt.toNat) +
            (bigEndian (width s.rsel) (packByte b s).1 * 2 ^ (packByte b s).2.cnt.toNat + (packByte b s).2.acc.toNat) := by
          rw [bigEndian_append, Nat.pow_add, Nat.mul_comm (width s.rsel)]
          ring
      _ = bigEndian (width s.rsel) is * 2 ^ (s.cnt.toNat + 8) + (s.acc.toNat * 2 ^ 8 + b.toNat) := by
          rw [hcount]
          exact congrArg _ hvalue
      _ = bytesValue (bs ++ [b]) := by
          rw [bytesValue_append, bytesValue_singleton, List.length_singleton, ← hheld]
          ring
  · rw [List.map_append, List.map_append]
    exact hans.append (t := ((packByte b s).2.setPos p).respond .ok _) rfl

/-- A spelling as output values, its pads as PadOut emits them (R121). -/
theorem map_symbol_spelling (A : Alphabet128) (r : Rsel) (is : List Nat) (m : Nat) :
    (spelling A r is (padCount r m)).map Datum.symbol =
      (is.map (symbolAt A r)).map .symbol ++
        (if padded r = true then
          List.replicate ((blockSymbols r - m % blockSymbols r) % blockSymbols r) (.symbol padChar) else []) := by
  by_cases h : padded r = true <;> simp [spelling, padCount, h]

/-- FIN in an encode conversion answers the tail symbol and the pads, so that all its symbols encode the bytes (R83, R121). -/
theorem encoding_fin {A : Alphabet128} {r : Rsel} {old : List Response} {bs : List Byte} {is : List Nat} {s : State}
    (h : Encoding A r old bs is s) :
    ∃ js t, exec .fin s = .next t ∧ Encodes r bs js ∧
      t.Answered old ((spelling A r js (padCount r js.length)).map .symbol) := by
  obtain ⟨rfl, ⟨hp, rfl, hres, hcnt, hpos⟩, hidx, hbits, hheld, hans⟩ := h
  have hW := width_ge_four s.rsel
  have hcnt' : s.cnt.toNat < width s.rsel := hcnt ▸ Nat.mod_lt _ (by omega)
  have hpos' : s.pos.toNat < blockSymbols s.rsel := hpos ▸ Nat.mod_lt _ (blockSymbols_pos _)
  have hposLen : s.pos.toNat = is.length % blockSymbols s.rsel := by
    rw [hpos, ← hbits, Nat.mul_comm, Nat.mul_add_div (by omega), Nat.div_eq_of_lt hcnt', Nat.add_zero]
  obtain ⟨hnone, htail⟩ := finInEncEmitsTailAndPads s hp hres hcnt' hpos'
  by_cases hz : s.cnt.toNat = 0
  · refine ⟨is, _, hnone hz, ⟨hidx, 0, by omega, by omega, ?_⟩, ?_⟩
    · have hacc : s.acc.toNat < 1 := by simpa [State.ReservoirOk, hz] using hres
      simp [← hheld, hz, Nat.lt_one_iff.mp hacc]
    · rw [map_symbol_spelling, ← hposLen]
      exact hans.append rfl
  · obtain ⟨c, hc, hfin⟩ := htail hz
    have hlen : (is ++ [s.acc.toNat * 2 ^ (width s.rsel - s.cnt.toNat)]).length = is.length + 1 := List.length_append
    have htop := alphabetSize_eq_two_pow_width s.rsel ▸ (romI2S_some hc).1
    refine ⟨is ++ [s.acc.toNat * 2 ^ (width s.rsel - s.cnt.toNat)], _, hfin,
      ⟨fun i hi => ?_, width s.rsel - s.cnt.toNat, by omega, ?_, ?_⟩, ?_⟩
    · rcases List.mem_append.mp hi with hi | hi
      · exact hidx i hi
      · exact List.mem_singleton.mp hi ▸ htop
    · rw [hlen, Nat.succ_mul]
      omega
    · rw [bigEndian_append, bigEndian_singleton, List.length_singleton, Nat.mul_one, ← hheld, Nat.add_mul, Nat.mul_assoc,
        ← Nat.pow_add, Nat.add_sub_cancel' hcnt'.le]
    · rw [map_symbol_spelling, hlen, List.map_append, List.map_append, List.append_assoc, List.map_singleton,
        symbolAt_of_romI2S hc, ← Nat.mod_add_mod, ← hposLen]
      exact hans.append rfl

/-- The encode call: the bytes' indices by their symbols, and the pads (R122). -/
theorem encodeCall_spec (r : Rsel) (bs : List Byte) (s : State) :
    ∃ is, Encodes r bs is ∧ encodeCall r bs s = some (spelling s.rom128 r is (padCount r is.length)) := by
  have hstep : ∀ pre b post u, bs = pre ++ b :: post → (∃ is, Encoding s.rom128 r s.responses pre is u) →
      ∃ t, exec (.putb b) u = .next t ∧ ∃ is, Encoding s.rom128 r s.responses (pre ++ [b]) is t := by
    rintro pre b post u - ⟨is, hu⟩
    obtain ⟨js, t, hexec, ht⟩ := encoding_putb b hu
    exact ⟨t, hexec, _, ht⟩
  obtain ⟨u, hrun, is, hu⟩ := runCommands_of_elements hstep ⟨[], encoding_openConversion r s⟩
  obtain ⟨js, t, hfin, henc, hans⟩ := encoding_fin hu
  exact ⟨js, henc, encodeCall_of_answered ((runCommands_cons (exec_cfg .encode r s)).trans
    ((runCommands_append hrun).trans (runCommands_singleton hfin))) hans⟩

/-- The encode call gives the spelling of the bytes' encoding and nothing else. -/
theorem encodeCall_eq_some_iff {r : Rsel} {bs : List Byte} {cs : List CodePoint} {s : State} :
    encodeCall r bs s = some cs ↔ ∃ is, Encodes r bs is ∧ cs = spelling s.rom128 r is (padCount r is.length) := by
  obtain ⟨is, henc, hcall⟩ := encodeCall_spec r bs s
  rw [hcall, Option.some.injEq]
  constructor
  · rintro rfl
    exact ⟨is, henc, rfl⟩
  · rintro ⟨js, henc', rfl⟩
    rw [encodes_unique henc henc']

/-- The fewest groups of W bits that hold n bytes: S for each whole block, and then those of the bytes left (R90, R122). -/
theorem groups_of_blocks (r : Rsel) (n : Nat) :
    (8 * n + width r - 1) / width r =
      n / blockBytes r * blockSymbols r + (8 * (n % blockBytes r) + width r - 1) / width r := by
  have hW : 0 < width r := Nat.zero_lt_of_lt (width_ge_four r)
  have hn : 8 * n = 8 * (n % blockBytes r) + width r * (n / blockBytes r * blockSymbols r) := by
    rw [Nat.mul_comm (n / _), ← Nat.mul_assoc, ← eight_mul_blockBytes, Nat.mul_assoc, ← Nat.mul_add, Nat.mod_add_div]
  rw [Nat.add_comm (n / _ * _), ← Nat.add_mul_div_left _ _ hW, hn]
  congr 1
  omega

/-- The bytes of an incomplete block give fewer symbols than a block has. -/
theorem symbols_of_incomplete_block (r : Rsel) :
    ∀ n < blockBytes r, (8 * n + width r - 1) / width r < blockSymbols r := by
  cases r <;> decide

/-- Settles O54: the bytes' bits fill S groups for each whole block, and the groups of the bytes left are fewer than S. -/
theorem encodeOutputLength : Obligations.EncodeOutputLength := by
  intro r bs s W S m
  obtain ⟨is, ⟨hidx, c, hc, hlen, -⟩, hcall⟩ := encodeCall_spec r bs s
  have hsymbols : is.length = bs.length / blockBytes r * S + m :=
    (groups_eq_ceil hlen hc).trans (groups_of_blocks r bs.length)
  have hm : m < S := symbols_of_incomplete_block r _ (Nat.mod_lt _ (blockBytes_pos r))
  refine ⟨is.map (symbolAt s.rom128 r), ?_, ?_, ?_⟩
  · rw [hcall, spelling, padCount, hsymbols, Nat.mul_add_mod', Nat.mod_eq_of_lt hm]
    split <;> rfl
  · rw [List.length_map, hsymbols]
  · intro x hx
    obtain ⟨i, hi, rfl⟩ := List.mem_map.mp hx
    exact symbolAt_mem _ (hidx i hi)

end Sys2Proof.Machine
end

section
/-! SUPPORT. Decode calls: what an accepted input is, symbol by symbol and pad by pad, so that a conversion ends OK exactly on an
encoding (`42_padding_fsm.md` R123 to R128). -/

namespace Sys2Proof.Machine

/-! ### UnpackIndex in numbers -/

/-- UnpackIndex loses no bit: the byte it takes, if any, and then the bits it leaves are the bits held and then the index's (R44, R85). -/
theorem unpackIndex_value {s : State} {i : Nat} (h : s.ReservoirOk) (hi : i < 2 ^ width s.rsel) :
    bytesValue (unpackIndex i s).1 * 2 ^ (unpackIndex i s).2.cnt.toNat + (unpackIndex i s).2.acc.toNat =
        s.acc.toNat * 2 ^ width s.rsel + i ∧
      8 * (unpackIndex i s).1.length + (unpackIndex i s).2.cnt.toNat = s.cnt.toNat + width s.rsel := by
  have hc := s.cnt.isLt
  have hw := width_le_seven s.rsel
  have ht := append_index_lt h hi
  have hfit : ∀ {x k : Nat}, x < 2 ^ k → k < 8 → x % 2 ^ 7 = x := fun hx hk =>
    Nat.mod_eq_of_lt (hx.trans_le (Nat.pow_le_pow_right (by decide) (by omega)))
  rcases unpackIndex_cases i s with ⟨hlt, e⟩ | ⟨hge, e⟩ <;>
    simp only [e, State.setReservoir_acc, State.setReservoir_cnt, BitVec.toNat_ofNat]
  · rw [hfit ht hlt, Nat.mod_eq_of_lt (by omega : _ < 2 ^ 3)]
    simp [bytesValue, bigEndian]
  · have hbyte := top_bits_lt hge ht
    rw [Nat.shiftRight_eq_div_pow] at hbyte
    rw [hfit (Nat.mod_lt _ (Nat.two_pow_pos _)) (by omega), Nat.mod_eq_of_lt (by omega : _ < 2 ^ 3), bytesValue_singleton,
      BitVec.toNat_ofNat, Nat.mod_eq_of_lt hbyte, List.length_singleton]
    exact ⟨Nat.div_add_mod' _ _, by omega⟩

/-! ### Decode conversions without an error -/

/-- After `symbols` symbols, `pads` pads may follow: none, or in a padded codec as many as fit the block, when the block's count of
symbols is one in VALIDM (R123). -/
def PadsFit (r : Rsel) (symbols pads : Nat) : Prop :=
  pads ≠ 0 → padded r = true ∧ symbols % blockSymbols r ∈ validM r ∧ symbols % blockSymbols r + pads ≤ blockSymbols r

/-- A decode conversion with codec `r` and table `A`, without an error, that was fed the symbols at the indices `is` and then `pads` pads,
and answered the bytes `bs` since `old`. -/
structure Decoding (A : Alphabet128) (r : Rsel) (old : List Response) (is : List Nat) (pads : Nat) (bs : List Byte)
    (s : State) : Prop where
  phase : s.phase = .dec
  rsel : s.rsel = r
  rom : s.rom128 = A
  err : s.err = .noError
  reservoir : s.ReservoirOk
  padf : s.padf = decide (pads ≠ 0)
  pos : s.pos.toNat = (is.length + pads) % blockSymbols r
  fit : PadsFit r is.length pads
  indices : ∀ i ∈ is, i < 2 ^ width r
  bits : is.length * width r = 8 * bs.length + s.cnt.toNat
  held : bigEndian (width r) is = bytesValue bs * 2 ^ s.cnt.toNat + s.acc.toNat
  answered : s.Answered old (bs.map .byte)

section
variable {A : Alphabet128} {r : Rsel} {old : List Response} {is : List Nat} {pads : Nat} {bs : List Byte} {s : State}

theorem decoding_openConversion (r : Rsel) (s : State) :
    Decoding s.rom128 r s.responses [] 0 [] (openConversion .decode r s) where
  phase := rfl
  rsel := rfl
  rom := rfl
  err := rfl
  reservoir := Nat.one_pos
  padf := rfl
  pos := by simp [openConversion]
  fit := fun h => absurd rfl h
  indices := by simp
  bits := by simp [openConversion]
  held := rfl
  answered := (answered_nil s).append (t := openConversion .decode r s) rfl

/-- A table symbol before any pad feeds its index's bits (R85, R153). -/
theorem decoding_index {i : Nat} (h : Decoding A r old is 0 bs s) (hi : i < 2 ^ width r) :
    Decoding A r old (is ++ [i]) 0 (bs ++ (unpackIndex i s).1)
      ((unpackIndex i s).2.advancePos.respond .ok ((unpackIndex i s).1.map .byte)) := by
  obtain ⟨hp, rfl, rfl, he, hres, hpadf, hpos, -, hidx, hbits, hheld, hans⟩ := h
  obtain ⟨hvalue, hcount⟩ := unpackIndex_value hres hi
  obtain ⟨hres', -⟩ := unpackIndex_reservoir hres hi
  have hpos' := advancePos_toNat (unpackIndex i s).2
  obtain ⟨t, c, hu⟩ := unpackIndex_frame i s
  rw [hu] at hvalue hcount hres' hpos' ⊢
  refine ⟨hp, rfl, rfl, he, hres', hpadf, ?_, fun h => absurd rfl h, ?_, ?_, ?_, ?_⟩
  · refine hpos'.trans ?_
    rw [State.setReservoir_pos, State.setReservoir_rsel, hpos, Nat.mod_add_mod, List.length_append, List.length_singleton]
  · simpa [or_imp, forall_and] using ⟨hidx, hi⟩
  · rw [List.length_append, List.length_append, List.length_singleton, Nat.succ_mul, hbits]
    change _ = _ + (s.setReservoir t c).cnt.toNat
    omega
  · change _ = _ * 2 ^ (s.setReservoir t c).cnt.toNat + (s.setReservoir t c).acc.toNat
    rw [bytesValue_append, Nat.add_mul, Nat.mul_assoc, ← Nat.pow_add, hcount, Nat.add_assoc, hvalue, bigEndian_append, hheld,
      bigEndian_singleton, List.length_singleton]
    ring
  · rw [List.map_append]
    exact hans.append rfl

/-- Pads that fit bring POS back to 0 exactly when they complete the block. -/
theorem pos_zero_iff_block_complete {m : Nat} (hfit : PadsFit r m pads) (hz : pads ≠ 0) :
    (m + pads) % blockSymbols r = 0 ↔ m % blockSymbols r + pads = blockSymbols r := by
  obtain ⟨-, -, hle⟩ := hfit hz
  rw [← Nat.mod_add_mod]
  rcases hle.lt_or_eq with hlt | heq
  · rw [Nat.mod_eq_of_lt hlt]
    omega
  · simp [heq]

/-- PadIn accepts one pad more exactly when it fits (R123). -/
theorem padInRefuses_eq_false_iff_fit (h : Decoding A r old is pads bs s) (hpadded : padded r = true) :
    padInRefuses s = false ↔ PadsFit r is.length (pads + 1) := by
  obtain ⟨-, rfl, -, -, -, hpadf, hpos, hfit, -⟩ := h
  have hlt := Nat.mod_lt is.length (blockSymbols_pos s.rsel)
  rw [padInRefuses_eq_false_iff, hpadf, hpos]
  by_cases hz : pads = 0
  · simp [PadsFit, hz, hpadded, Nat.succ_le_of_lt hlt]
  · obtain ⟨-, hm, hle⟩ := hfit hz
    have hpos_ne : (is.length + pads) % blockSymbols s.rsel ≠ 0 ↔
        is.length % blockSymbols s.rsel + pads < blockSymbols s.rsel := by
      rw [ne_eq, pos_zero_iff_block_complete hfit hz]
      omega
    have hnext : PadsFit s.rsel is.length (pads + 1) ↔
        is.length % blockSymbols s.rsel + pads < blockSymbols s.rsel :=
      ⟨fun h => (h (Nat.succ_ne_zero pads)).2.2, fun h _ => ⟨hpadded, hm, h⟩⟩
    simp [hz, hpos_ne, hnext]

/-- A pad that fits is counted (R123). -/
theorem decoding_pad (h : Decoding A r old is pads bs s) (hfit : PadsFit r is.length (pads + 1)) :
    Decoding A r old is (pads + 1) bs ((acceptPad s).respond .ok []) := by
  obtain ⟨hp, rfl, rfl, he, hres, hpadf, hpos, -, hidx, hbits, hheld, hans⟩ := h
  refine ⟨hp, rfl, rfl, he, hres, rfl, ?_, hfit, hidx, hbits, hheld, ?_⟩
  · refine (advancePos_toNat (s.setPadf true)).trans ?_
    rw [State.setPadf_pos, State.setPadf_rsel, hpos, Nat.mod_add_mod]
    rfl
  · rw [← List.append_nil (bs.map Datum.byte)]
    exact hans.append rfl

/-- An error is recorded in an open decode conversion. -/
def State.Failed (s : State) : Prop := s.phase = .dec ∧ s.err ≠ .noError

/-- Every PUTS in a conversion without an error feeds a symbol, feeds a pad or records an error. -/
theorem decoding_puts (c : CodePoint) (h : Decoding A r old is pads bs s) :
    (decodeSymbol c s).Failed ∨
    (∃ i cs, pads = 0 ∧ c = symbolAt A r i ∧ Decoding A r old (is ++ [i]) 0 (bs ++ cs) (decodeSymbol c s)) ∨
    (c = padChar ∧ Decoding A r old is (pads + 1) bs (decodeSymbol c s)) := by
  have hfails : ∀ e, e ≠ Err.noError → (s.failWith e).Failed := fun e he => ⟨h.phase, he⟩
  rcases decodeSymbol_cases c s with ⟨he, e⟩ | ⟨-, -, e⟩ | ⟨-, -, -, e⟩ | ⟨-, hpad, hin, e⟩ | ⟨i, -, -, -, e⟩ |
    ⟨i, -, hsym, hpadf, e⟩ <;> rw [e]
  · exact absurd h.err he
  · exact .inl (hfails _ (by simp))
  · exact .inl (hfails _ (by simp))
  · obtain ⟨hpadded, rfl⟩ := romS2I_pad hpad
    rw [h.rsel] at hpadded
    exact .inr (.inr ⟨rfl, decoding_pad h ((padInRefuses_eq_false_iff_fit h hpadded).mp hin)⟩)
  · exact .inl (hfails _ (by simp))
  · have hz : pads = 0 := by simpa [hpadf] using h.padf
    subst hz
    rw [h.rom, h.rsel] at hsym
    exact .inr (.inl ⟨i, _, rfl, (symbolAt_of_romI2S (romS2I_sym hsym)).symm, decoding_index h (romS2I_sym_lt hsym)⟩)

/-- After an error PUTS changes nothing that decides the status (R187). -/
theorem failed_puts (c : CodePoint) (h : s.Failed) : (decodeSymbol c s).Failed := by
  have e : decodeSymbol c s = s.respond (errStatus s.err) [] := if_pos h.2
  rw [e]
  exact h

/-! ### FIN's verdict -/

/-- What DecodeEnd asks of a conversion without an error: without pads a length in VALIDEND, with pads a complete block (R125). -/
def Complete (r : Rsel) (symbols pads : Nat) : Prop :=
  (pads = 0 ∧ symbols % blockSymbols r ∈ validEnd r) ∨ (pads ≠ 0 ∧ (symbols + pads) % blockSymbols r = 0)

theorem errStatus_eq_ok_iff (e : Err) : errStatus e = .ok ↔ e = .noError := by cases e <;> decide

/-- FIN's checks raise nothing exactly when the input is complete and no leftover bit is 1 (R125, R87). -/
theorem decoding_checks (h : Decoding A r old is pads bs s) :
    errStatus (decodeChecks s).err = .ok ↔ Complete r is.length pads ∧ s.acc.toNat = 0 := by
  obtain ⟨-, rfl, -, he, -, hpadf, hpos, -⟩ := h
  have hcomplete : Complete s.rsel is.length pads ↔
      (s.padf = true → s.pos.toNat = 0) ∧ (s.padf = false → s.pos.toNat ∈ validEnd s.rsel) := by
    rw [hpadf, hpos]
    by_cases hz : pads = 0 <;> simp [Complete, hz]
  rw [errStatus_eq_ok_iff, hcomplete]
  rcases decodeChecks_cases s with ⟨hne, -⟩ | ⟨-, hp, hpos', e⟩ | ⟨-, hp, hpos', e⟩ | ⟨-, hpad, hend, hacc, e⟩ |
    ⟨-, hpad, hend, hacc, e⟩
  · exact absurd he hne
  · simp [e, hp, hpos']
  · simp [e, hp, hpos']
  · simp [e, hacc]
  · rw [e]
    exact iff_of_true he ⟨⟨hpad, hend⟩, hacc⟩

/-- The leftover bits, from the symbols of the last block. -/
theorem leftover_bits {m n c : Nat} (hbits : m * width r = 8 * n + c) (hc : c < 8) :
    width r * (m % blockSymbols r) % 8 = c := by
  rw [decode_count_mod_block, Nat.mul_comm, hbits, Nat.mul_add_mod, Nat.mod_eq_of_lt hc]

/-- VALIDEND lists the lengths that leave fewer than W bits and need no pad (R120, R126). -/
theorem mem_validEnd_iff (r : Rsel) : ∀ m < blockSymbols r,
    (m ∈ validEnd r ↔ width r * m % 8 < width r ∧ (padded r = true → m = 0)) := by
  cases r <;> decide

/-- VALIDM lists the lengths of a padded codec that leave fewer than W bits and need pads (R120, R127). -/
theorem mem_validM_iff (r : Rsel) : ∀ m < blockSymbols r,
    (m ∈ validM r ↔ width r * m % 8 < width r ∧ padded r = true ∧ m ≠ 0) := by
  cases r <;> decide

/-- An encoding needs no pad in an unpadded codec and after whole blocks, and else as many as complete the block (R122). -/
theorem padCount_eq (r : Rsel) (m : Nat) :
    padCount r m =
      if padded r = true ∧ m % blockSymbols r ≠ 0 then blockSymbols r - m % blockSymbols r else 0 := by
  have hlt := Nat.mod_lt m (blockSymbols_pos r)
  by_cases hp : padded r = true <;> by_cases hz : m % blockSymbols r = 0 <;> simp [padCount, hp, hz]
  exact Nat.mod_eq_of_lt (by omega)

/-- An input without an error is complete exactly when fewer than W bits are left and the pads are those of an encoding. -/
theorem complete_iff {m n c : Nat} (hfit : PadsFit r m pads) (hbits : m * width r = 8 * n + c) (hc : c < 8) :
    Complete r m pads ↔ c < width r ∧ pads = padCount r m := by
  have hlt := Nat.mod_lt m (blockSymbols_pos r)
  by_cases hz : pads = 0
  · rw [Complete, mem_validEnd_iff r _ hlt, leftover_bits hbits hc, padCount_eq]
    grind
  · obtain ⟨hpadded, hm, -⟩ := hfit hz
    rw [mem_validM_iff r _ hlt, leftover_bits hbits hc] at hm
    rw [Complete, pos_zero_iff_block_complete hfit hz, padCount_eq, if_pos hm.2]
    omega

/-- The pads of an encoding fit. -/
theorem padsFit_padCount {m n c : Nat} (hbits : m * width r = 8 * n + c) (hc : c < width r) :
    PadsFit r m (padCount r m) := by
  have hlt := Nat.mod_lt m (blockSymbols_pos r)
  have hleft := leftover_bits hbits (hc.trans_le ((width_le_seven r).trans (by decide)))
  intro hne
  rw [padCount_eq] at hne ⊢
  obtain ⟨hneeds, -⟩ := ite_ne_right_iff.mp hne
  rw [if_pos hneeds, mem_validM_iff r _ hlt, hleft]
  exact ⟨hneeds.1, ⟨hc, hneeds⟩, by omega⟩

/-- What a conversion without an error was fed encodes no bytes but those it answered. -/
theorem bytes_of_encodes {cs : List Byte} (h : Decoding A r old is pads bs s) (henc : Encodes r cs is) :
    cs = bs ∧ s.acc.toNat = 0 ∧ s.cnt.toNat < width r := by
  obtain ⟨-, c, hc, hlen, hval⟩ := henc
  have hcnt := s.cnt.isLt
  have hw := width_le_seven r
  have hbits := h.bits
  have hheld := h.held
  obtain rfl : c = s.cnt.toNat := by omega
  rw [hval, Nat.mul_comm, Nat.mul_comm (bytesValue bs)] at hheld
  have hacc : s.acc.toNat = 0 := by
    rw [← Nat.mod_eq_of_lt h.reservoir, ← Nat.mul_add_mod (2 ^ s.cnt.toNat) (bytesValue bs), ← hheld, Nat.mul_mod_right]
  rw [hacc, Nat.add_zero] at hheld
  exact ⟨bytesValue_injective (by omega) (Nat.eq_of_mul_eq_mul_left (Nat.two_pow_pos _) hheld), hacc, hc⟩

/-- FIN answers OK exactly when what the conversion was fed is an encoding of what it answered (R128). -/
theorem decoding_ok_iff (h : Decoding A r old is pads bs s) :
    errStatus (decodeChecks s).err = .ok ↔ Encodes r bs is ∧ pads = padCount r is.length := by
  rw [decoding_checks h, complete_iff h.fit h.bits s.cnt.isLt]
  constructor
  · rintro ⟨⟨hc, hpads⟩, hacc⟩
    exact ⟨⟨h.indices, s.cnt.toNat, hc, h.bits, by rw [h.held, hacc, Nat.add_zero]⟩, hpads⟩
  · rintro ⟨henc, hpads⟩
    obtain ⟨-, hacc, hc⟩ := bytes_of_encodes h henc
    exact ⟨⟨hc, hpads⟩, hacc⟩

end

/-! ### Runs of PUTS -/

/-- After CFG the block is decoding, and after any symbols it still is, or an error is recorded: what it accepted is symbols and then
pads. -/
theorem decoding_or_failed (r : Rsel) (cs : List CodePoint) (s : State) :
    ∃ t, runCommands (cs.map .puts) (openConversion .decode r s) = .next t ∧
      (t.Failed ∨ ∃ is pads bs, cs = spelling s.rom128 r is pads ∧ Decoding s.rom128 r s.responses is pads bs t) := by
  refine runCommands_of_elements
    (P := fun cs t => t.Failed ∨
      ∃ is pads bs, cs = spelling s.rom128 r is pads ∧ Decoding s.rom128 r s.responses is pads bs t)
    ?_ (.inr ⟨[], 0, [], rfl, decoding_openConversion r s⟩)
  rintro pre c post u - (hu | ⟨is, pads, bs, rfl, hu⟩)
  · exact ⟨_, exec_puts_dec c hu.1, .inl (failed_puts c hu)⟩
  · refine ⟨_, exec_puts_dec c hu.phase, ?_⟩
    rcases decoding_puts c hu with ht | ⟨i, new, rfl, rfl, ht⟩ | ⟨rfl, ht⟩
    · exact .inl ht
    · exact .inr ⟨_, 0, _, (spelling_index _ _ _ _).symm, ht⟩
    · exact .inr ⟨_, _, _, (spelling_pad _ _ _ _).symm, ht⟩

/-- Table symbols are accepted. -/
theorem decoding_indices {r : Rsel} {is : List Nat} {s : State} (hA : s.rom128.Distinct)
    (hidx : ∀ i ∈ is, i < 2 ^ width r) :
    ∃ t, runCommands (is.map fun i => .puts (symbolAt s.rom128 r i)) (openConversion .decode r s) = .next t ∧
      ∃ bs, Decoding s.rom128 r s.responses is 0 bs t := by
  refine runCommands_of_elements (P := fun is t => ∃ bs, Decoding s.rom128 r s.responses is 0 bs t) ?_
    ⟨[], decoding_openConversion r s⟩
  rintro pre i post u rfl ⟨bs, hu⟩
  have hi := hidx i (by simp)
  have hsym : romS2I u.rom128 u.rsel (symbolAt s.rom128 r i) = .sym i := by
    rw [hu.rom, hu.rsel]
    exact romS2I_of_romI2S hA (romI2S_eq_symbolAt _ hi)
  exact ⟨_, exec_puts_of_sym hu.phase hu.err hu.padf hsym, _, decoding_index hu hi⟩

/-- Pads that fit are accepted after symbols. -/
theorem decoding_pads {A : Alphabet128} {r : Rsel} {old : List Response} {is : List Nat} {pads : Nat} {bs : List Byte}
    {s : State} (h : Decoding A r old is 0 bs s) (hfit : PadsFit r is.length pads) :
    ∃ t, runCommands ((List.replicate pads padChar).map .puts) s = .next t ∧ Decoding A r old is pads bs t := by
  have hstep : ∀ pre c post u, List.replicate pads padChar = pre ++ c :: post → Decoding A r old is pre.length bs u →
      ∃ t, exec (.puts c) u = .next t ∧ Decoding A r old is (pre ++ [c]).length bs t := by
    intro pre c post u hpre hu
    have hc : c = padChar := List.eq_of_mem_replicate (hpre ▸ by simp : c ∈ List.replicate pads padChar)
    have hlen := congrArg List.length hpre
    simp only [List.length_replicate, List.length_append, List.length_cons] at hlen
    obtain ⟨hpadded, hm, hle⟩ := hfit (by omega)
    have hfit' : PadsFit r is.length (pre.length + 1) := fun _ => ⟨hpadded, hm, by omega⟩
    have hin := (padInRefuses_eq_false_iff_fit hu hpadded).mpr hfit'
    have hexec := exec_puts_padChar hu.phase hu.err (hu.rsel ▸ hpadded)
    rw [decodePad, if_neg (by simp [hin])] at hexec
    rw [hc, List.length_append]
    exact ⟨_, hexec, decoding_pad hu hfit'⟩
  obtain ⟨t, hrun, ht⟩ := runCommands_of_elements hstep h
  exact ⟨t, hrun, by simpa using ht⟩

/-- Table symbols and then pads that fit are accepted. -/
theorem decoding_spelling {r : Rsel} {is : List Nat} {pads : Nat} {s : State} (hA : s.rom128.Distinct)
    (hidx : ∀ i ∈ is, i < 2 ^ width r) (hfit : PadsFit r is.length pads) :
    ∃ bs t, runCommands ((spelling s.rom128 r is pads).map .puts) (openConversion .decode r s) = .next t ∧
      Decoding s.rom128 r s.responses is pads bs t := by
  obtain ⟨u, hsymbols, bs, hu⟩ := decoding_indices hA hidx
  obtain ⟨t, hpads, ht⟩ := decoding_pads hu hfit
  refine ⟨bs, t, ?_, ht⟩
  rw [spelling, List.map_append, List.map_map]
  exact (runCommands_append hsymbols).trans hpads

/-! ### The decode call -/

/-- Whatever was presented, the responses since before CFG carry some data. -/
theorem answered_of_run {d : Dir} {r : Rsel} {is : List Instr} {s t : State}
    (h : runCommands is (openConversion d r s) = .next t) : ∃ ds, t.Answered s.responses ds := by
  obtain ⟨added, hresp, -⟩ := runCommands_withPorts h
  exact ⟨_, _, hresp.trans (List.append_assoc _ _ _), rfl⟩

/-- A conversion with a recorded error gives no bytes (R157). -/
theorem decodeCall_of_failed {r : Rsel} {cs : List CodePoint} {s t : State}
    (h : runCommands (cs.map .puts) (openConversion .decode r s) = .next t) (ht : t.Failed) (bs : List Byte) :
    decodeCall r cs s ≠ some (.ok bs) := by
  obtain ⟨ds, hans⟩ := answered_of_run h
  obtain ⟨hp, he⟩ := ht
  have hchecks : decodeChecks t = t := by simp [decodeChecks, he]
  have hstatus : errStatus (decodeChecks t).err ≠ .ok := by rwa [hchecks, ne_eq, errStatus_eq_ok_iff]
  simp [decodeCall_of_answered h hp hans, hstatus]

/-- A conversion without an error gives the bytes it answered, exactly when what it was fed encodes them. -/
theorem decodeCall_of_decoding {r : Rsel} {cs : List CodePoint} {is : List Nat} {pads : Nat} {bs : List Byte} {s t : State}
    (h : runCommands (cs.map .puts) (openConversion .decode r s) = .next t)
    (ht : Decoding s.rom128 r s.responses is pads bs t) (out : List Byte) :
    decodeCall r cs s = some (.ok out) ↔ out = bs ∧ Encodes r bs is ∧ pads = padCount r is.length := by
  rw [decodeCall_of_answered h ht.phase ht.answered, bytesOf_map_byte, ← decoding_ok_iff ht]
  by_cases hok : errStatus (decodeChecks t).err = .ok <;> simp [hok, eq_comm]

/-- The decode call gives bytes exactly for the spelling of their encoding. -/
theorem decodeCall_eq_ok_iff {r : Rsel} {cs : List CodePoint} {bs : List Byte} {s : State} (hA : s.rom128.Distinct) :
    decodeCall r cs s = some (.ok bs) ↔ ∃ is, Encodes r bs is ∧ cs = spelling s.rom128 r is (padCount r is.length) := by
  constructor
  · intro hcall
    obtain ⟨t, hrun, ht | ⟨is, pads, out, rfl, ht⟩⟩ := decoding_or_failed r cs s
    · exact absurd hcall (decodeCall_of_failed hrun ht bs)
    · obtain ⟨rfl, henc, rfl⟩ := (decodeCall_of_decoding hrun ht bs).mp hcall
      exact ⟨is, henc, rfl⟩
  · rintro ⟨is, henc, rfl⟩
    have ⟨hidx, c, hc, hlen, _⟩ := henc
    obtain ⟨out, t, hrun, ht⟩ := decoding_spelling hA hidx (padsFit_padCount hlen hc)
    obtain ⟨rfl, -⟩ := bytes_of_encodes ht henc
    exact (decodeCall_of_decoding hrun ht bs).mpr ⟨rfl, henc, rfl⟩

/-- Settles O58: both calls single out the spelling of the bytes' one encoding. -/
theorem decodeAcceptsExactlyEncodings : Obligations.DecodeAcceptsExactlyEncodings :=
  fun _ _ _ _ hA => (decodeCall_eq_ok_iff hA).trans encodeCall_eq_some_iff.symm

/-- Settles O56: an odd number of symbols leaves POS at 1, which is no end of radix-16, and DecodeEnd comes before the leftover bits. -/
theorem oddRadix16InputIsMalformedLength : Obligations.OddRadix16InputIsMalformedLength := by
  intro cs s hcs hodd
  have hstep : ∀ i ∈ cs.map Instr.puts, ∀ n u, DecodedSymbols s.rom128 .radix16 n u →
      ∃ t, exec i u = .next t ∧ DecodedSymbols s.rom128 .radix16 (n + 1) t := by
    intro i hi n u hu
    obtain ⟨c, hc, rfl⟩ := List.mem_map.mp hi
    exact decodedSymbols_puts (hcs c hc) hu
  obtain ⟨t, hrun, hp, -, hrsel, he, hpadf, -, -, hpos⟩ :=
    runCommands_of_count hstep (decodedSymbols_zero (s := openConversion .decode .radix16 s) rfl rfl rfl rfl rfl rfl)
  have hend : t.pos.toNat ∉ validEnd t.rsel := by
    rw [hpos, hrsel, Nat.zero_add, List.length_map, blockSymbols, hodd]
    decide
  have hchecks : decodeChecks t = t.raise .malformedLength := by simp [decodeChecks, he, decodeEnd, hpadf, hend]
  obtain ⟨ds, hans⟩ := answered_of_run hrun
  rw [decodeCall_of_answered hrun hp hans, hchecks]
  rfl

end Sys2Proof.Machine
end

section
/-! SUPPORT. The commands of `43_commands.md`: which are rejected where (R155, R160), the one response of each (R150), runs that never
stop (R161), and the round trip (R159). -/

namespace Sys2Proof.Machine

/-! ### Runs from good states, and the round trip -/

/-- Settles O39: a run from a good state goes on from good state to good state. -/
theorem goodStatesRunForever : Obligations.GoodStatesRunForever := by
  intro s hinv k
  obtain ⟨t, hrun, -, -⟩ := run_of_inv k hinv
  exact ⟨t, hrun⟩

/-- Settles O57: the encode call gives the spelling of the bytes' encoding, which the decode call accepts. -/
theorem decodeOfEncodeIsTheBytes : Obligations.DecodeOfEncodeIsTheBytes := by
  intro r bs s hA
  obtain ⟨is, henc, hcall⟩ := encodeCall_spec r bs s
  exact ⟨_, hcall, (decodeCall_eq_ok_iff hA).mpr ⟨is, henc, rfl⟩⟩

/-! ### The step and the command it runs -/

/-- Settles O8: the step takes the word from the port and executes what it decodes to. -/
theorem stepExecutesTheDecodedCommand : Obligations.StepExecutesTheDecodedCommand :=
  fun _ _ _ _ hin hd => step_of_decode hin hd

/-- The decoder reads from a table word what it decodes from its command word. -/
theorem decode_of_decodeTableWord {nbits w : Nat} {i : Instr} (h : decodeTableWord nbits w = some i) :
    decode (tableWord nbits w) = .ok i := by
  unfold decodeTableWord at h
  cases hd : decode (tableWord nbits w) with
  | ok j => simpa [hd] using h
  | error e => simp [hd] at h

/-- Settles O9: the placed word stands first at the port, and taking it gives the state back. -/
theorem placedWordRunsNext : Obligations.PlacedWordRunsNext :=
  fun s nbits w _ h => step_of_decode (s := s.withFetchWord nbits w) rfl (decode_of_decodeTableWord h)

/-! ### Rejected commands -/

/-- The phases in which R160 rejects each command; CFG is accepted in all. -/
def Rejected (i : Instr) (s : State) : Prop :=
  (∃ b, i = .putb b ∧ s.phase ≠ .enc) ∨ (∃ c, i = .puts c ∧ s.phase ≠ .dec) ∨ (i = .fin ∧ s.phase = .idle)

theorem exec_of_rejected {i : Instr} {s : State} (h : Rejected i s) : exec i s = .next s.rejectCommand := by
  rcases h with ⟨b, rfl, hp⟩ | ⟨c, rfl, hp⟩ | ⟨rfl, hp⟩
  · exact execPutb_reject hp
  · exact execPuts_reject hp
  · exact execFin_reject hp

/-- Settles O11: an ILLEGAL word and a command in a phase that rejects it are answered alike. -/
theorem illegalCommandsWriteNothing : Obligations.IllegalCommandsWriteNothing := by
  intro s w rest hin h
  have reject : ∀ i, decode w = .ok i → Rejected i { s with inputs := rest } →
      step s = .next ({ s with inputs := rest } : State).rejectCommand :=
    fun i hd hi => (step_of_decode hin hd).trans (exec_of_rejected hi)
  rcases h with ⟨e, hd⟩ | ⟨b, hd, hp⟩ | ⟨c, hd, hp⟩ | ⟨hd, hp⟩
  · exact step_of_illegal hin hd
  · exact reject _ hd (.inl ⟨b, rfl, hp⟩)
  · exact reject _ hd (.inr (.inl ⟨c, rfl, hp⟩))
  · exact reject _ hd (.inr (.inr ⟨rfl, hp⟩))

/-! ### The one response of a command -/

/-- ERR stands for no IllegalCommand (R27, R68). -/
theorem errStatus_ne_illegalCommand (e : Err) : errStatus e ≠ .illegalCommand := by cases e <;> decide

/-- PUTS in DEC answers in DEC, and never IllegalCommand (R153). -/
theorem decodeSymbol_response (c : CodePoint) (s : State) :
    ∃ a : Response, (decodeSymbol c s).responses = s.responses ++ [a] ∧ a.phase = s.phase ∧ a.status ≠ .illegalCommand := by
  rcases decodeSymbol_cases c s with ⟨-, e⟩ | ⟨-, -, e⟩ | ⟨-, -, -, e⟩ | ⟨-, -, -, e⟩ | ⟨i, -, -, -, e⟩ | ⟨i, -, -, -, e⟩ <;>
    rw [e]
  · exact ⟨_, rfl, rfl, errStatus_ne_illegalCommand _⟩
  · exact ⟨_, rfl, rfl, errStatus_ne_illegalCommand .invalidSymbol⟩
  · exact ⟨_, rfl, rfl, errStatus_ne_illegalCommand .malformedPadding⟩
  · exact ⟨_, rfl, rfl, by simp⟩
  · exact ⟨_, rfl, rfl, errStatus_ne_illegalCommand .malformedPadding⟩
  · obtain ⟨t, n, hu⟩ := unpackIndex_frame i s
    rw [hu]
    exact ⟨_, rfl, rfl, by simp⟩

/-- A command that R160 does not reject appends one response, with PHASE as it then stands and not IllegalCommand. -/
theorem exec_response_of_not_rejected {i : Instr} {s t : State} (hi : ¬Rejected i s) (h : exec i s = .next t) :
    ∃ a : Response, t.responses = s.responses ++ [a] ∧ a.phase = t.phase ∧ a.status ≠ .illegalCommand := by
  cases i with
  | cfg d r =>
    cases h
    exact ⟨_, rfl, rfl, by simp⟩
  | putb b =>
    rcases execPutb_cases h with ⟨hp, -⟩ | ⟨-, ds, s1, he, rfl⟩
    · exact absurd (.inl ⟨b, rfl, hp⟩) hi
    · obtain ⟨p, rfl⟩ := emitIndices_frame he
      exact ⟨_, rfl, rfl, by simp⟩
  | puts c =>
    rcases execPuts_cases h with ⟨hp, -⟩ | ⟨-, rfl⟩
    · exact absurd (.inr (.inl ⟨c, rfl, hp⟩)) hi
    · obtain ⟨-, -, hphase⟩ := decodeSymbol_frame c s
      rw [hphase]
      exact decodeSymbol_response c s
  | fin =>
    rcases execFin_cases h with ⟨hp, -⟩ | ⟨-, ds, s1, he, rfl⟩ | ⟨-, rfl⟩
    · exact absurd (.inr (.inr ⟨rfl, hp⟩)) hi
    · obtain ⟨p, rfl⟩ := emitIndices_frame he
      obtain ⟨-, -, -, -, -, -, -, hresp⟩ := packTail_frame s
      exact ⟨_, congrArg (· ++ _) hresp, rfl, by simp⟩
    · obtain ⟨e, he⟩ := decodeChecks_frame s
      rw [he]
      exact ⟨_, rfl, rfl, errStatus_ne_illegalCommand _⟩

/-- Everything common to the commands' responses: each appends one, with PHASE as it then stands, and it is IllegalCommand where R160
rejects the command. -/
theorem exec_response {i : Instr} {s t : State} (h : exec i s = .next t) :
    ∃ a : Response, t.responses = s.responses ++ [a] ∧ a.phase = t.phase ∧ (a.status = .illegalCommand ↔ Rejected i s) := by
  by_cases hi : Rejected i s
  · cases (exec_of_rejected hi).symm.trans h
    exact ⟨_, rfl, rfl, iff_of_true rfl hi⟩
  · obtain ⟨a, hresp, hphase, hstatus⟩ := exec_response_of_not_rejected hi h
    exact ⟨a, hresp, hphase, iff_of_false hstatus hi⟩

/-- The status an outcome ends with is that of the response it appended. -/
theorem answerStatus_of_append {t : State} {old : List Response} {a : Response} (h : t.responses = old ++ [a]) :
    answerStatus (.next t) = some a.status := by
  simp [answerStatus, lastAnswer, h]

/-- Settles O12: in a good state the command answers, and its response is IllegalCommand exactly where it is rejected. -/
theorem legalityByPhase : Obligations.LegalityByPhase := by
  intro s i hinv
  obtain ⟨t, hexec⟩ := exec_answers i hinv
  obtain ⟨a, hresp, -, hstatus⟩ := exec_response hexec
  rw [hexec, answerStatus_of_append hresp, Option.some.injEq]
  exact hstatus

/-- Settles O15: an ILLEGAL word gets the response of a rejected one, and a command its own. -/
theorem eachCommandGetsOneResponse : Obligations.EachCommandGetsOneResponse := by
  intro s t w rest hin h
  cases hd : decode w with
  | error e =>
    cases (step_of_illegal hin hd).symm.trans h
    exact ⟨rfl, _, rfl, rfl⟩
  | ok i =>
    have hexec := (step_of_decode hin hd).symm.trans h
    obtain ⟨-, -, hins, -⟩ := exec_withPorts hexec
    obtain ⟨a, hresp, hphase, -⟩ := exec_response hexec
    exact ⟨hins, a, hresp, hphase⟩

/-! ### CFG -/

/-- Settles O17: the state CFG leaves, written out for each direction. -/
theorem cfgOpensAConversion : Obligations.CfgOpensAConversion :=
  fun r s => ⟨exec_cfg .encode r s, exec_cfg .decode r s⟩

/-! ### After an error -/

/-- After an error PUTS only reports it (R187). -/
theorem exec_puts_absorbed (c : CodePoint) {s : State} (hp : s.phase = .dec) (he : s.err ≠ .noError) :
    exec (.puts c) s = .next (s.respond (errStatus s.err) []) := by
  rw [exec_puts_dec c hp, decodeSymbol, if_pos he]

/-- Settles O22: the absorbed PUTS appends a response and changes nothing else. -/
theorem putsIsAbsorbedAfterAnError : Obligations.PutsIsAbsorbedAfterAnError :=
  fun c s hp he => ⟨⟨errStatus s.err, s.phase, []⟩, exec_puts_absorbed c hp he, hp, rfl, by cases s.err <;> rfl⟩

/-- FIN after an error reports it (R188). -/
theorem answerStatus_fin_of_err {s : State} (hp : s.phase = .dec) (he : s.err ≠ .noError) :
    answerStatus (exec .fin s) = some (errStatus s.err) := by
  have hchecks : decodeChecks s = s := by simp [decodeChecks, he]
  rw [exec_fin_dec hp, answerStatus_of_append (closeConversion_responses _ _ _), hchecks]

/-- Settles O52: every further PUTS is absorbed, so ERR is the same when FIN reports it. -/
theorem finReportsTheSameErrorEarlyOrLate : Obligations.FinReportsTheSameErrorEarlyOrLate := by
  intro cs s hp he
  have hstep : ∀ (pre : List CodePoint) c post (u : State), cs = pre ++ c :: post → u.phase = .dec ∧ u.err = s.err →
      ∃ t, exec (.puts c) u = .next t ∧ t.phase = .dec ∧ t.err = s.err :=
    fun _ c _ u _ hu => ⟨_, exec_puts_absorbed c hu.1 (hu.2 ▸ he), hu⟩
  obtain ⟨t, hrun, hp', herr⟩ := runCommands_of_elements (P := fun _ t => t.phase = .dec ∧ t.err = s.err) hstep ⟨hp, rfl⟩
  have hfin := exec_fin_dec hp'
  rw [runCommands_append hrun, runCommands_singleton hfin, ← hfin, answerStatus_fin_of_err hp' (herr ▸ he), herr]

end Sys2Proof.Machine
end

section
/-! SUPPORT. Nothing is cut in a good state (`43_commands.md` R162). -/

namespace Sys2Proof.Machine

/-- Fewer than 8 bits fit ACC, and their number fits CNT. -/
theorem setReservoir_uncut (s : State) {t c : Nat} (ht : t < 2 ^ c) (hc : c < 8) :
    t < 2 ^ 7 ∧ c < 2 ^ 3 ∧ (s.setReservoir t c).acc.toNat = t ∧ (s.setReservoir t c).cnt.toNat = c := by
  have ht' : t < 2 ^ 7 := ht.trans_le (Nat.pow_le_pow_right (by decide) (by omega))
  exact ⟨ht', hc, Nat.mod_eq_of_lt ht', Nat.mod_eq_of_lt hc⟩

/-- The bits PackByte leaves are the last of the bits held and the byte's (R81). -/
theorem packByte_acc {b : Byte} {s : State} (h : s.ReservoirOk) :
    (packByte b s).2.acc.toNat = (s.acc.toNat * 2 ^ 8 + b.toNat) % 2 ^ ((s.cnt.toNat + 8) % width s.rsel) := by
  obtain ⟨hlt, -⟩ := packByte_reservoir (b := b) h
  rw [← (packByte_div_mod b s).2, ← packByte_value h, Nat.mul_add_mod', Nat.mod_eq_of_lt hlt]

/-- Everything R162 says of PackByte: T and C fit 14 bits and 14, and what its loop leaves is written uncut. -/
theorem packByte_fits (b : Byte) {s : State} (hres : s.ReservoirOk) (hcnt : s.cnt.toNat < width s.rsel) :
    let T := s.acc.toNat * 2 ^ 8 + b.toNat
    let C := s.cnt.toNat + 8
    let left := (packLoop (width s.rsel) 3 T C).2
    T < 2 ^ 14 ∧ C ≤ 14 ∧ left.1 < 2 ^ 7 ∧ left.2 < 2 ^ 3 ∧
      packByte b s = ((packLoop (width s.rsel) 3 T C).1, s.setReservoir left.1 left.2) ∧
      (packByte b s).2.acc.toNat = left.1 ∧ (packByte b s).2.cnt.toNat = left.2 ∧
      left.1 = T % 2 ^ (C % width s.rsel) ∧ left.2 = C % width s.rsel := by
  intro T C left
  have hW := width_le_seven s.rsel
  have hT : T < 2 ^ 14 := by
    have hb := b.isLt
    have hacc : s.acc.toNat < 2 ^ 6 := hres.trans_le (Nat.pow_le_pow_right (by decide) (by omega))
    omega
  obtain ⟨hacc, hcnt'⟩ := packByte_uncut (b := b) hres
  change _ = left.1 at hacc
  change _ = left.2 at hcnt'
  obtain ⟨hlt, hleft⟩ := packByte_reservoir (b := b) hres
  rw [hacc, hcnt'] at hlt
  rw [hcnt'] at hleft
  obtain ⟨h7, h3, -⟩ := setReservoir_uncut s hlt (by omega)
  exact ⟨hT, by omega, h7, h3, packByte_eq b s, hacc, hcnt', hacc.symm.trans (packByte_acc hres),
    hcnt'.symm.trans (packByte_div_mod b s).2⟩

/-- Everything R162 says of UnpackIndex: T and C fit 14 bits and 14, what it leaves is written uncut, and the byte is the whole
quotient. -/
theorem unpackIndex_fits {idx : Nat} {s : State} (hres : s.ReservoirOk) (hidx : idx < 2 ^ width s.rsel) :
    let T := s.acc.toNat * 2 ^ width s.rsel + idx
    let C := s.cnt.toNat + width s.rsel
    let leftBits := if 8 ≤ C then T % 2 ^ (C - 8) else T
    let leftCount := if 8 ≤ C then C - 8 else C
    T < 2 ^ 14 ∧ C ≤ 14 ∧ leftBits < 2 ^ 7 ∧ leftCount < 2 ^ 3 ∧
      (unpackIndex idx s).2 = s.setReservoir leftBits leftCount ∧
      (unpackIndex idx s).2.acc.toNat = leftBits ∧ (unpackIndex idx s).2.cnt.toNat = leftCount ∧
      ((unpackIndex idx s).1.map fun b => b.toNat) = (if 8 ≤ C then [T / 2 ^ (C - 8)] else []) := by
  intro T C leftBits leftCount
  have hW := width_le_seven s.rsel
  have hcnt := s.cnt.isLt
  have hC : C ≤ 14 := by omega
  have hTC : T < 2 ^ C := append_index_lt hres hidx
  have hT : T < 2 ^ 14 := hTC.trans_le (Nat.pow_le_pow_right (by decide) hC)
  rcases unpackIndex_cases idx s with ⟨hlt, e⟩ | ⟨hge, e⟩
  · have hC8 : ¬8 ≤ C := by omega
    simp only [leftBits, leftCount, if_neg hC8, e]
    obtain ⟨h7, h3, hacc, hcnt'⟩ := setReservoir_uncut s hTC (by omega)
    exact ⟨hT, hC, h7, h3, rfl, hacc, hcnt', rfl⟩
  · have hC8 : 8 ≤ C := hge
    simp only [leftBits, leftCount, if_pos hC8, e]
    obtain ⟨h7, h3, hacc, hcnt'⟩ := setReservoir_uncut s (Nat.mod_lt T (Nat.two_pow_pos (C - 8))) (by omega)
    have hbyte : T / 2 ^ (C - 8) < 2 ^ 8 := by
      rw [← Nat.shiftRight_eq_div_pow]
      exact top_bits_lt hC8 hTC
    exact ⟨hT, hC, h7, h3, rfl, hacc, hcnt', congrArg (fun n => [n]) (Nat.mod_eq_of_lt hbyte)⟩

/-- In a good state POS is inside the block, in every phase (R25). -/
theorem pos_lt_blockSymbols {s : State} (h : s.PhaseOk) : s.pos.toNat < blockSymbols s.rsel := by
  cases hp : s.phase with
  | idle =>
    obtain ⟨-, hpos, -⟩ := (phaseOk_idle hp).mp h
    exact hpos ▸ blockSymbols_pos s.rsel
  | enc => exact (encodeOk_bounds ((phaseOk_enc hp).mp h)).2
  | dec => exact ((phaseOk_dec hp).mp h).1

/-- Settles O47: in ENC fewer than W bits are held, in DEC fewer than 8, and POS is inside the block. -/
theorem intermediateValuesFit : Obligations.IntermediateValuesFit := by
  rintro s ⟨-, hres, hphase⟩
  have hcnt : s.phase = .enc → s.cnt.toNat < width s.rsel := fun hp => (encodeOk_bounds ((phaseOk_enc hp).mp hphase)).1
  exact ⟨fun hp b => packByte_fits b hres (hcnt hp),
    fun hp => alphabetSize_eq_two_pow_width s.rsel ▸ packTail_lt hres (hcnt hp), fun _ _ hidx => unpackIndex_fits hres hidx,
    pos_lt_blockSymbols hphase, advancePos_toNat s⟩

end Sys2Proof.Machine
end

section
/-! SUPPORT. How much a conversion answers (`43_commands.md` R161), counted command by command. -/

namespace Sys2Proof.Machine

/-- The block has answered at most `m` values since `old`. -/
def State.AnsweredAtMost (old : List Response) (m : Nat) (s : State) : Prop := ∃ ds, s.Answered old ds ∧ ds.length ≤ m

theorem length_le_of_answeredAtMost {old : List Response} {m : Nat} {s : State} (h : s.AnsweredAtMost old m) :
    (dataOf (responsesSince old.length s)).length ≤ m := by
  obtain ⟨ds, ⟨rs, hresp, rfl⟩, hle⟩ := h
  rwa [responsesSince, hresp, List.drop_left]

theorem answeredAtMost_openConversion (d : Dir) (r : Rsel) (s : State) :
    (openConversion d r s).AnsweredAtMost s.responses 0 :=
  ⟨[], (answered_nil s).append (t := openConversion d r s) rfl, Nat.le_refl 0⟩

/-- A command that answers `n` values appends one response that carries them. -/
theorem exec_of_answerCount {i : Instr} {s : State} {n : Nat} (h : answerCount (exec i s) = some n) :
    ∃ t a, exec i s = .next t ∧ t.responses = s.responses ++ [a] ∧ a.data.length = n := by
  cases hexec : exec i s with
  | fault f => simp [hexec, answerCount, lastAnswer] at h
  | refused f => simp [hexec, answerCount, lastAnswer] at h
  | next t =>
    obtain ⟨a, hresp, -⟩ := exec_withPorts hexec
    exact ⟨t, a, rfl, hresp, by simpa [hexec, answerCount, lastAnswer, hresp] using h⟩

/-- A command that answers at most `k` values adds as many at most. -/
theorem exec_answeredAtMost {old : List Response} {m n k : Nat} {i : Instr} {s : State} (h : s.AnsweredAtMost old m)
    (hcount : answerCount (exec i s) = some n) (hn : n ≤ k) : ∃ t, exec i s = .next t ∧ t.AnsweredAtMost old (m + k) := by
  obtain ⟨t, a, hexec, hresp, rfl⟩ := exec_of_answerCount hcount
  obtain ⟨ds, hans, hle⟩ := h
  exact ⟨t, hexec, ds ++ a.data, hans.append hresp, by rw [List.length_append]; omega⟩

/-- FIN after any number of bytes answers at most 7 values (R69). -/
theorem fin_count_of_encodedBytes {r : Rsel} {n : Nat} {s : State} (h : EncodedBytes r n s) :
    ∃ k, answerCount (exec .fin s) = some k ∧ k ≤ 7 := by
  obtain ⟨hp, rfl, hres, hcnt, hpos⟩ := h
  have hW : 0 < width s.rsel := Nat.zero_lt_of_lt (width_ge_four s.rsel)
  have hmost : finMost s.rsel ≤ 7 := by cases s.rsel <;> decide
  obtain ⟨hc, hq⟩ := encode_count_mod_block s.rsel n
  have hle := finValues_le_finMost s.rsel _ (Nat.mod_lt n (blockBytes_pos s.rsel))
  rw [hc, hq, ← hcnt, ← hpos] at hle
  exact ⟨_, answerCount_fin_enc hp hres (hcnt ▸ Nat.mod_lt _ hW) (hpos ▸ Nat.mod_lt _ (blockSymbols_pos _)),
    hle.trans hmost⟩

/-- PUTB answers at most 2 values (R82). -/
theorem putb_count_of_encodedBytes {r : Rsel} {n : Nat} {s : State} (b : Byte) (h : EncodedBytes r n s) :
    ∃ k, answerCount (exec (.putb b) s) = some k ∧ k ≤ 2 := by
  obtain ⟨hp, rfl, hres, hcnt, -⟩ := h
  have hW : 0 < width s.rsel := Nat.zero_lt_of_lt (width_ge_four s.rsel)
  obtain ⟨-, hone, -⟩ := packByteIndexCount b s (hcnt ▸ Nat.mod_lt _ hW)
  exact ⟨_, answerCount_putb hp hres b, by omega⟩

/-- An encode call of n bytes runs and answers at most 2·n + 7 values. -/
theorem encodeCommands_bound (r : Rsel) (bs : List Byte) (s : State) :
    ∃ t, runCommands (encodeCommands r bs) s = .next t ∧ t.AnsweredAtMost s.responses (2 * bs.length + 7) := by
  have hstep : ∀ (pre : List Byte) b post u, bs = pre ++ b :: post →
      EncodedBytes r pre.length u ∧ u.AnsweredAtMost s.responses (2 * pre.length) →
      ∃ t, exec (.putb b) u = .next t ∧
        EncodedBytes r (pre ++ [b]).length t ∧ t.AnsweredAtMost s.responses (2 * (pre ++ [b]).length) := by
    rintro pre b post u - ⟨hcounted, hans⟩
    obtain ⟨k, hcount, hk⟩ := putb_count_of_encodedBytes b hcounted
    obtain ⟨t, hexec, hans'⟩ := exec_answeredAtMost hans hcount hk
    obtain ⟨t', hexec', hcounted'⟩ := encodedBytes_putb b hcounted
    cases hexec.symm.trans hexec'
    rw [List.length_append]
    exact ⟨t, hexec, hcounted', hans'⟩
  obtain ⟨u, hrun, hcounted, hans⟩ := runCommands_of_elements
    (P := fun bs u => EncodedBytes r bs.length u ∧ u.AnsweredAtMost s.responses (2 * bs.length)) hstep
    ⟨encodedBytes_zero (s := openConversion .encode r s) rfl rfl rfl rfl, answeredAtMost_openConversion .encode r s⟩
  obtain ⟨k, hcount, hk⟩ := fin_count_of_encodedBytes hcounted
  obtain ⟨t, hfin, ht⟩ := exec_answeredAtMost hans hcount hk
  exact ⟨t, (runCommands_cons (exec_cfg .encode r s)).trans
    ((runCommands_append hrun).trans (runCommands_singleton hfin)), ht⟩

/-- A decode call of n symbols runs and answers at most n values. -/
theorem decodeCommands_bound (r : Rsel) (cs : List CodePoint) (s : State) :
    ∃ t, runCommands (decodeCommands r cs) s = .next t ∧ t.AnsweredAtMost s.responses cs.length := by
  have hstep : ∀ (pre : List CodePoint) c post u, cs = pre ++ c :: post →
      u.phase = .dec ∧ u.AnsweredAtMost s.responses pre.length →
      ∃ t, exec (.puts c) u = .next t ∧ t.phase = .dec ∧ t.AnsweredAtMost s.responses (pre ++ [c]).length := by
    rintro pre c post u - ⟨hp, hans⟩
    have hexec := exec_puts_dec c hp
    obtain ⟨-, -, hphase⟩ := decodeSymbol_frame c u
    obtain ⟨k, hcount, hk⟩ := answerCount_decodeSymbol c u
    obtain ⟨t, hexec', hans'⟩ := exec_answeredAtMost hans (hexec ▸ hcount) hk
    cases hexec.symm.trans hexec'
    rw [List.length_append]
    exact ⟨_, hexec, hphase.trans hp, hans'⟩
  obtain ⟨u, hrun, hp, hans⟩ := runCommands_of_elements
    (P := fun cs u => u.phase = .dec ∧ u.AnsweredAtMost s.responses cs.length) hstep
    ⟨rfl, answeredAtMost_openConversion .decode r s⟩
  have hcount : answerCount (exec .fin u) = some 0 := by
    rw [exec_fin_dec hp]
    exact answerCount_closeConversion _ _ _
  obtain ⟨t, hfin, ht⟩ := exec_answeredAtMost hans hcount (Nat.le_refl 0)
  exact ⟨t, (runCommands_cons (exec_cfg .decode r s)).trans
    ((runCommands_append hrun).trans (runCommands_singleton hfin)), ht⟩

/-- In a good state every command answers at most 7 values (R69). -/
theorem exec_count_le_seven (i : Instr) {s : State} (hinv : s.Inv) : ∃ n, answerCount (exec i s) = some n ∧ n ≤ 7 := by
  obtain ⟨hcfg, hputb, hputs, hfinEnc, hfinDec, hreject⟩ := responseCountsByCommand s hinv
  by_cases hi : Rejected i s
  · exact ⟨0, exec_of_rejected hi ▸ hreject, Nat.zero_le 7⟩
  cases i with
  | cfg d r => exact ⟨0, hcfg d r, Nat.zero_le 7⟩
  | putb b =>
    have hp : s.phase = .enc := by_contra fun hp => hi (.inl ⟨b, rfl, hp⟩)
    rcases hputb hp b with h | ⟨h, -⟩
    · exact ⟨2, h, by decide⟩
    · exact ⟨1, h, by decide⟩
  | puts c =>
    have hp : s.phase = .dec := by_contra fun hp => hi (.inr (.inl ⟨c, rfl, hp⟩))
    rcases hputs hp c with h | h
    · exact ⟨0, h, by decide⟩
    · exact ⟨1, h, by decide⟩
  | fin =>
    cases hp : s.phase with
    | idle => exact absurd (.inr (.inr ⟨rfl, hp⟩)) hi
    | dec => exact ⟨0, hfinDec hp, Nat.zero_le 7⟩
    | enc =>
      obtain ⟨n, hn, hle⟩ := hfinEnc hp
      refine ⟨n, hn, hle.trans ?_⟩
      cases s.rsel <;> decide

/-- Settles O55: a call is CFG, its elements and FIN, and its values are counted command by command. -/
theorem conversionBounds : Obligations.ConversionBounds := by
  refine ⟨fun r bs s => ⟨by simp [encodeCommands], ?_⟩, fun r cs s => ⟨by simp [decodeCommands], ?_⟩, fun s i hinv => ?_⟩
  · obtain ⟨t, hrun, hans⟩ := encodeCommands_bound r bs s
    exact ⟨t, hrun, length_le_of_answeredAtMost hans⟩
  · obtain ⟨t, hrun, hans⟩ := decodeCommands_bound r cs s
    exact ⟨t, hrun, length_le_of_answeredAtMost hans⟩
  · obtain ⟨n, hcount, hle⟩ := exec_count_le_seven i hinv
    obtain ⟨t, a, hexec, hresp, rfl⟩ := exec_of_answerCount hcount
    exact ⟨t, a, hexec, hresp, hle⟩

end Sys2Proof.Machine
end

section
/-! SUPPORT. Errors and statuses (`60_exceptions.md` R181 to R191): which commands raise which error, and what becomes of ERR. -/

namespace Sys2Proof.Machine

/-! ### The status of a response -/

theorem answerStatus_respond (st : Status) (ds : List Datum) (s : State) :
    answerStatus (.next (s.respond st ds)) = some st := answerStatus_of_append (State.respond_responses st ds s)

theorem answerStatus_closeConversion (st : Status) (ds : List Datum) (s : State) :
    answerStatus (.next (closeConversion st ds s)) = some st := answerStatus_respond st ds _

/-! ### Encoding -/

/-- PUTB in ENC answers OK (R152). -/
theorem answerStatus_putb_enc (b : Byte) {s : State} (hinv : s.Inv) (hp : s.phase = .enc) :
    answerStatus (exec (.putb b) s) = some .ok := by
  obtain ⟨t, h⟩ := exec_answers (.putb b) hinv
  rw [h]
  rcases execPutb_cases h with ⟨hne, -⟩ | ⟨-, ds, s1, -, rfl⟩
  · exact absurd hp hne
  · exact answerStatus_respond _ _ _

/-- FIN in ENC answers OK (R154). -/
theorem answerStatus_fin_enc {s : State} (hinv : s.Inv) (hp : s.phase = .enc) : answerStatus (exec .fin s) = some .ok := by
  obtain ⟨t, h⟩ := exec_answers .fin hinv
  rw [h]
  rcases execFin_cases h with ⟨hp', -⟩ | ⟨-, ds, s1, -, rfl⟩ | ⟨hp', -⟩
  · cases hp.symm.trans hp'
  · exact answerStatus_closeConversion _ _ _
  · cases hp.symm.trans hp'

/-- Settles O21: an ILLEGAL word and PUTS are rejected in ENC, and the three other commands answer OK. -/
theorem encodeConversionsRaiseNoError : Obligations.EncodeConversionsRaiseNoError := by
  intro s hinv hp
  refine ⟨fun b => answerStatus_putb_enc b hinv hp, answerStatus_fin_enc hinv hp, fun w rest hin => ?_⟩
  cases hd : decode w with
  | error e =>
    rw [step_of_illegal hin hd]
    exact .inr ⟨answerStatus_respond _ _ _, .inl ⟨e, rfl⟩⟩
  | ok i =>
    rw [step_of_decode hin hd]
    cases i with
    | cfg d r => exact .inl (answerStatus_respond _ _ _)
    | putb b => exact .inl (answerStatus_putb_enc b (s := { s with inputs := rest }) hinv hp)
    | puts c =>
      have hreject : Rejected (.puts c) { s with inputs := rest } := .inr (.inl ⟨c, rfl, by simp [hp]⟩)
      rw [exec_of_rejected hreject]
      exact .inr ⟨answerStatus_respond _ _ _, .inr ⟨c, rfl⟩⟩
    | fin => exact .inl (answerStatus_fin_enc (s := { s with inputs := rest }) hinv hp)

/-! ### PUTS in DEC -/

/-- RomS2I answers PAD exactly for the pad of a padded codec (R105). -/
theorem romS2I_eq_pad_iff (A : Alphabet128) (t : Rsel) (c : CodePoint) :
    romS2I A t c = .pad ↔ padded t = true ∧ c = padChar := by
  refine ⟨romS2I_pad, ?_⟩
  rintro ⟨hpadded, rfl⟩
  exact romS2I_padChar A hpadded

/-- RomS2I answers an index exactly for the entries of the table (R105). -/
theorem exists_romS2I_eq_sym_iff (A : Alphabet128) (t : Rsel) (c : CodePoint) :
    (∃ i, romS2I A t c = .sym i) ↔ c ∈ romTable A t := by
  refine ⟨?_, romS2I_of_mem⟩
  rintro ⟨i, hi⟩
  exact (romI2S_some (romS2I_sym hi)).2

/-- Settles O23: RomS2I answers NONE, which is recorded as InvalidSymbol. -/
theorem putsInvalidSymbol : Obligations.PutsInvalidSymbol := by
  intro c s hp he hmem hpad
  have hnone : romS2I s.rom128 s.rsel c = .unknown := (romS2I_of_not_mem hmem).trans (if_neg hpad)
  exact (exec_puts_of_unknown hp he hnone).trans (congrArg Host.Outcome.next (failWith_eq _ hp))

/-- PadIn refuses a first pad at a POS outside VALIDM, and a later one when POS is back at 0 (R123). -/
theorem padInRefuses_eq_true_iff (s : State) :
    padInRefuses s = true ↔
      (s.padf = false ∧ s.pos.toNat ∉ validM s.rsel) ∨ (s.padf = true ∧ s.pos.toNat = 0) := by
  cases hpadf : s.padf <;> simp [padInRefuses, hpadf]

/-- PUTS answers MalformedPadding for a pad that PadIn refuses and for a symbol after a pad (R123, R124). -/
theorem answerStatus_puts_eq_malformedPadding_iff (c : CodePoint) {s : State} (hp : s.phase = .dec)
    (he : s.err = .noError) :
    answerStatus (exec (.puts c) s) = some .malformedPadding ↔
      (romS2I s.rom128 s.rsel c = .pad ∧ padInRefuses s = true) ∨
        ((∃ i, romS2I s.rom128 s.rsel c = .sym i) ∧ s.padf = true) := by
  rw [exec_puts_dec c hp]
  rcases decodeSymbol_cases c s with ⟨hne, -⟩ | ⟨-, hrom, e⟩ | ⟨-, hrom, hin, e⟩ | ⟨-, hrom, hin, e⟩ |
    ⟨i, -, hrom, hpadf, e⟩ | ⟨i, -, hrom, hpadf, e⟩
  · exact absurd he hne
  all_goals rw [e, hrom]
  · simp [State.failWith, answerStatus_respond, errStatus]
  · simp [State.failWith, answerStatus_respond, errStatus, hin]
  · simp [answerStatus_respond, hin]
  · simp [State.failWith, answerStatus_respond, errStatus, hpadf]
  · simp [answerStatus_respond, hpadf]

/-! ### FIN in DEC -/

/-- The status of FIN in DEC with no error before it, in the order of R188. -/
theorem answerStatus_fin_dec_cases {s : State} (hp : s.phase = .dec) (he : s.err = .noError) :
    (s.padf = true ∧ s.pos.toNat ≠ 0 ∧ answerStatus (exec .fin s) = some .malformedPadding) ∨
    (s.padf = false ∧ s.pos.toNat ∉ validEnd s.rsel ∧ answerStatus (exec .fin s) = some .malformedLength) ∨
    ((s.padf = true → s.pos.toNat = 0) ∧ (s.padf = false → s.pos.toNat ∈ validEnd s.rsel) ∧ s.acc.toNat ≠ 0 ∧
      answerStatus (exec .fin s) = some .nonZeroTrailingBits) ∨
    ((s.padf = true → s.pos.toNat = 0) ∧ (s.padf = false → s.pos.toNat ∈ validEnd s.rsel) ∧ s.acc.toNat = 0 ∧
      answerStatus (exec .fin s) = some .ok) := by
  rw [exec_fin_dec hp, answerStatus_closeConversion]
  rcases decodeChecks_cases s with ⟨hne, -⟩ | ⟨-, hpadf, hpos, e⟩ | ⟨-, hpadf, hpos, e⟩ | ⟨-, hpad, hend, hacc, e⟩ |
    ⟨-, hpad, hend, hacc, e⟩
  · exact absurd he hne
  · exact .inl ⟨hpadf, hpos, e ▸ rfl⟩
  · exact .inr (.inl ⟨hpadf, hpos, e ▸ rfl⟩)
  · exact .inr (.inr (.inl ⟨hpad, hend, hacc, e ▸ rfl⟩))
  · exact .inr (.inr (.inr ⟨hpad, hend, hacc, by rw [e, he]; rfl⟩))

/-- FIN answers MalformedPadding exactly when pads leave the block incomplete (R125). -/
theorem answerStatus_fin_eq_malformedPadding_iff {s : State} (hp : s.phase = .dec) (he : s.err = .noError) :
    answerStatus (exec .fin s) = some .malformedPadding ↔ s.padf = true ∧ s.pos.toNat ≠ 0 := by
  rcases answerStatus_fin_dec_cases hp he with ⟨hpadf, hpos, e⟩ | ⟨hpadf, -, e⟩ | ⟨hpad, -, -, e⟩ | ⟨hpad, -, -, e⟩ <;>
    rw [e]
  · exact iff_of_true rfl ⟨hpadf, hpos⟩
  · simp [hpadf]
  all_goals simpa using hpad

/-- FIN answers MalformedLength exactly when an input without pads ends outside VALIDEND (R125). -/
theorem answerStatus_fin_eq_malformedLength_iff {s : State} (hp : s.phase = .dec) (he : s.err = .noError) :
    answerStatus (exec .fin s) = some .malformedLength ↔ s.padf = false ∧ s.pos.toNat ∉ validEnd s.rsel := by
  rcases answerStatus_fin_dec_cases hp he with ⟨hpadf, -, e⟩ | ⟨hpadf, hpos, e⟩ | ⟨-, hend, -, e⟩ | ⟨-, hend, -, e⟩ <;>
    rw [e]
  · simp [hpadf]
  · exact iff_of_true rfl ⟨hpadf, hpos⟩
  all_goals simpa using hend

/-- Settles O32: DecodeEnd raises nothing in two of FIN's four cases, and ACC tells those apart. -/
theorem finNonZeroTrailingBitsExactly : Obligations.FinNonZeroTrailingBitsExactly := by
  intro s hp he
  have hends : (s.padf = true ∧ s.pos.toNat = 0) ∨ (s.padf = false ∧ s.pos.toNat ∈ validEnd s.rsel) ↔
      (s.padf = true → s.pos.toNat = 0) ∧ (s.padf = false → s.pos.toNat ∈ validEnd s.rsel) := by
    cases s.padf <;> simp
  rw [hends, ne_eq, BitVec.toNat_eq]
  rcases answerStatus_fin_dec_cases hp he with ⟨hpadf, hpos, e⟩ | ⟨hpadf, hpos, e⟩ | ⟨hpad, hend, hacc, e⟩ |
    ⟨-, -, hacc, e⟩ <;> rw [e]
  · simp [hpadf, hpos]
  · simp [hpadf, hpos]
  · exact iff_of_true rfl ⟨⟨hpad, hend⟩, hacc⟩
  · simp [hacc]

/-- In a good state only a padded codec has seen a pad (R26). -/
theorem padded_of_padf {s : State} (hinv : s.Inv) (hp : s.phase = .dec) (hpadf : s.padf = true) :
    padded s.rsel = true := by
  obtain ⟨-, -, hphase⟩ := hinv
  obtain ⟨-, -, hpads, -⟩ := (phaseOk_dec hp).mp hphase
  exact (hpads hpadf).1

/-- Settles O28: RomS2I tells pads from symbols, PadIn refuses for two causes, and a set PADF means a padded codec. -/
theorem malformedPaddingHasFourCauses : Obligations.MalformedPaddingHasFourCauses := by
  intro s hinv hp he
  have hpadded := padded_of_padf hinv hp
  refine ⟨fun c => ?_, ?_⟩
  · rw [answerStatus_puts_eq_malformedPadding_iff c hp he, romS2I_eq_pad_iff, exists_romS2I_eq_sym_iff,
      padInRefuses_eq_true_iff, padChar]
    tauto
  · rw [answerStatus_fin_eq_malformedPadding_iff hp he]
    exact ⟨fun h => ⟨hpadded h.1, h⟩, And.right⟩

/-- Settles O31: inside the block, the positions that are not in VALIDEND, codec by codec. -/
theorem finMalformedLengthExactly : Obligations.FinMalformedLengthExactly := by
  intro s hinv hp he
  obtain ⟨-, -, hphase⟩ := hinv
  have hpos := pos_lt_blockSymbols hphase
  rw [answerStatus_fin_eq_malformedLength_iff hp he]
  refine and_congr_right fun _ => ?_
  cases hr : s.rsel with
  | radix64 => simp [validEnd]
  | radix32 => simp [validEnd]
  | radix16 =>
    rw [hr, blockSymbols] at hpos
    rw [validEnd, List.mem_singleton]
    omega
  | radix128 =>
    rw [hr, blockSymbols] at hpos
    simp only [validEnd, List.mem_cons, List.not_mem_nil, or_false]
    omega

/-! ### ERR over a step -/

/-- What clears ERR (R191): CFG, and FIN where it is legal. -/
def ClearsErr (i : Instr) (s : State) : Prop := (∃ d r, i = .cfg d r) ∨ (i = .fin ∧ s.phase ≠ .idle)

theorem err_of_clearsErr {i : Instr} {s t : State} (hi : ClearsErr i s) (h : exec i s = .next t) :
    t.err = .noError := by
  rcases hi with ⟨d, r, rfl⟩ | ⟨rfl, hp⟩
  · cases h
    rfl
  · rcases execFin_cases h with ⟨hp', -⟩ | ⟨-, ds, s1, -, rfl⟩ | ⟨-, rfl⟩
    · exact absurd hp' hp
    · rfl
    · rfl

/-- The errors PUTS raises (R181, R183); the two others are FIN's alone. -/
def RaisedByPuts (e : Err) : Prop := e = .invalidSymbol ∨ e = .malformedPadding

/-- A symbol in DEC keeps ERR, or records the first error and does nothing else (R187). -/
theorem decodeSymbol_err (c : CodePoint) (s : State) :
    (decodeSymbol c s).err = s.err ∨
      (s.err = .noError ∧ ∃ e, RaisedByPuts e ∧ decodeSymbol c s = s.failWith e) := by
  rcases decodeSymbol_cases c s with ⟨-, e⟩ | ⟨he, -, e⟩ | ⟨he, -, -, e⟩ | ⟨-, -, -, e⟩ | ⟨i, he, -, -, e⟩ | ⟨i, -, -, -, e⟩
  · exact .inl (e ▸ rfl)
  · exact .inr ⟨he, _, .inl rfl, e⟩
  · exact .inr ⟨he, _, .inr rfl, e⟩
  · exact .inl (e ▸ rfl)
  · exact .inr ⟨he, _, .inr rfl, e⟩
  · obtain ⟨t, n, hu⟩ := unpackIndex_frame i s
    rw [e, hu]
    exact .inl rfl

/-- A command that does not clear ERR keeps it, or is a PUTS in DEC that records the first error and does nothing else. -/
theorem exec_err {i : Instr} {s t : State} (hi : ¬ClearsErr i s) (h : exec i s = .next t) :
    t.err = s.err ∨
      (s.err = .noError ∧ s.phase = .dec ∧ (∃ c, i = .puts c) ∧ ∃ e, RaisedByPuts e ∧ t = s.failWith e) := by
  cases i with
  | cfg d r => exact absurd (.inl ⟨d, r, rfl⟩) hi
  | putb b =>
    rcases execPutb_cases h with ⟨-, rfl⟩ | ⟨-, ds, s1, he, rfl⟩
    · exact .inl rfl
    · obtain ⟨p, rfl⟩ := emitIndices_frame he
      exact .inl rfl
  | puts c =>
    rcases execPuts_cases h with ⟨-, rfl⟩ | ⟨hp, rfl⟩
    · exact .inl rfl
    · rcases decodeSymbol_err c s with hkept | ⟨he, hraised⟩
      · exact .inl hkept
      · exact .inr ⟨he, hp, ⟨c, rfl⟩, hraised⟩
  | fin =>
    have hp : s.phase = .idle := by_contra fun hp => hi (.inr ⟨rfl, hp⟩)
    cases (execFin_reject hp).symm.trans h
    exact .inl rfl

/-- Settles O43: the step executes the command on the state with the word taken, and there ERR is cleared, kept or recorded. -/
theorem firstErrorIsRecordedAndSticky : Obligations.FirstErrorIsRecordedAndSticky := by
  intro s t w rest i hin hd h
  have hexec := (step_of_decode hin hd).symm.trans h
  refine ⟨fun hi => err_of_clearsErr (s := { s with inputs := rest }) hi hexec, fun hi => ?_⟩
  rcases exec_err (s := { s with inputs := rest }) hi hexec with hkept | ⟨he, hp, hputs, e, hraised, rfl⟩
  · exact ⟨fun _ => hkept, fun he hne => absurd (hkept.trans he) hne⟩
  · exact ⟨fun hne => absurd he hne, fun _ _ => ⟨hp, hputs, hraised, failWith_eq e hp⟩⟩

end Sys2Proof.Machine
end

section
/-! SUPPORT. The two steps that run no command: waiting with nothing presented (log entry 3), and the reset event (R210). -/

namespace Sys2Proof.Machine

/-- Settles O10: with nothing to take the step keeps the state. -/
theorem blockWaitsForACommand : Obligations.BlockWaitsForACommand :=
  fun _ hin => step_of_nothing_presented hin

/-- What the reset event leaves, written out: R31's value in each register, with the ROM and both ports kept (R210). -/
theorem resetEvent_eq (s : State) :
    s.resetEvent = { s with phase := .idle, rsel := .radix64, acc := 0, cnt := 0, pos := 0, padf := false,
                            err := .noError } :=
  rfl

/-- Settles O13: the step takes the reset event from the port and writes R31's values. -/
theorem resetEventGivesTheResetState : Obligations.ResetEventGivesTheResetState := by
  intro s rest hin
  rw [step_of_reset hin, resetEvent_eq]

end Sys2Proof.Machine
end
